-- ==== Sys2Proof/Word.lean ====
section
/-! DEFINITION. The machine word (rule R3) and the reading of a word as an integer (rule R19). -/

namespace Sys2Proof

/-- R3: the machine word, 16 bits.  Every register, memory location, instruction word and ALU operand is one. -/
abbrev Word := BitVec 16

/-- R19: `s16(w)`, the two's-complement integer of a word. -/
abbrev s16 (w : Word) : Int := w.toInt

/-- R19: `u16(w)`, the unsigned integer of a word. -/
abbrev u16 (w : Word) : Nat := w.toNat

/-- R19: `trunc16(n)`, the word whose unsigned reading is `n mod 65536`, for any integer. -/
abbrev trunc16 (n : Int) : Word := BitVec.ofInt 16 n

end Sys2Proof
end

