-- ==== Sys2Proof/Config.lean ====
section
/-! DEFINITION. The parameters of the model (rule R9, spec/93_implementation_defined.md section 2): what an
implementation fixes for the life of a run.  A `Config` is plain data and stands in `State.cfg`, which no step writes
(log entry 1), so that a statement about every state is a statement about every value of every parameter. -/

namespace Sys2Proof

/-- R17: a block's content when the machine is created: "either a fresh zero-filled block of a given size, or a block
pre-populated from an externally supplied word sequence (its size is implied by that sequence's length)". -/
inductive BlockInit where
  | fresh (size : Nat)
  | loaded (words : List Word)
  deriving DecidableEq, Repr

/-- R35: one memory block of the mapper: its name (used for persistence matching only), its read-only flag and what
the loader supplied. -/
structure Block where
  name     : String
  readOnly : Bool
  init     : BlockInit
  deriving DecidableEq, Repr

/-- R9, D16: what the registers hold at reset. -/
inductive RegReset where
  | zero
  | arbitrary
  deriving DecidableEq, Repr

/-- R9, D6: the kind of right shift. -/
inductive ShrKind where
  | arithmetic
  | logical
  deriving DecidableEq, Repr

/-- D5, spec/93 section 2: the secondary result of NOOP, the operand b (the default) or 0. -/
inductive NoopSecondary where
  | operandB
  | zero
  deriving DecidableEq, Repr

/-- R9, R20: the register address map, "a configuration table" (D1): the address of each register, of the stack
pseudo-address and of the two ports, with the spec's default in the source's order. -/
structure RegisterMap where
  r0     : Word := 0
  r1     : Word := 1
  r2     : Word := 2
  r3     : Word := 3
  acc0   : Word := 4
  acc1   : Word := 5
  flags  : Word := 6
  sp     : Word := 7
  ep     : Word := 8
  mbe    : Word := 9
  intc   : Word := 10
  stack  : Word := 11
  input  : Word := 12
  output : Word := 13
  deriving DecidableEq, Repr

/-- R20: the register address map with the spec's defaults. -/
def RegisterMap.standard : RegisterMap := {}

/-- R9, R69: the opcode values, a configuration table (D2, D3, D4; log entry 13).  A cleaned opcode of the math or the
jump class is the class's six high bits `OPC[9:4]` and a four-bit kind `OPC[3:0]`, the "low 4 bits of opcode" (R71). -/
structure OpcodeMap where
  /-- D4: `OPC[9:4]` of the math class, 0x000..0x00F. -/
  mathHigh : BitVec 6 := 0b000000
  /-- D3, D4: `OPC[9:4]` of the jump class, 0x010..0x01F; it holds the comparison-request bit, `OPC[4]`. -/
  jumpHigh : BitVec 6 := 0b000001
  /-- D4: whether a kind that names nothing belongs to its class, as an unknown operation or comparison; false is the
  alternative that D4 sets aside, where such an opcode is an unknown opcode. -/
  fullRanges : Bool := true
  /-- D2: the kinds of the ALU operations. -/
  noop : BitVec 4 := 0
  /-- The one value that the source gives: ADD is 0x001. -/
  add  : BitVec 4 := 1
  sub  : BitVec 4 := 2
  mul  : BitVec 4 := 3
  div  : BitVec 4 := 4
  mod  : BitVec 4 := 5
  and  : BitVec 4 := 6
  or   : BitVec 4 := 7
  xor  : BitVec 4 := 8
  shl  : BitVec 4 := 9
  shr  : BitVec 4 := 10
  /-- D3: the kinds of the comparisons. -/
  jeq  : BitVec 4 := 0
  jlt  : BitVec 4 := 1
  jle  : BitVec 4 := 2
  jgt  : BitVec 4 := 3
  jge  : BitVec 4 := 4
  /-- D4: the cleaned opcode of MOVE. -/
  move : BitVec 10 := 0x020
  /-- D4: the cleaned opcode of INTERRUPT. -/
  int  : BitVec 10 := 0x040
  deriving DecidableEq, Repr

/-- R69: the opcode values with the spec's defaults, those of spec/opcode_table.json. -/
def OpcodeMap.standard : OpcodeMap := {}

/-- R9: the parameters, each with the spec's default; `blocks` has none in the spec (D26). -/
structure Config where
  /-- R35: the ordered list of memory blocks. -/
  blocks         : List Block
  /-- R20, D1: the register address map. -/
  regMap         : RegisterMap := {}
  /-- R69, D2, D3, D4: the opcode values. -/
  opcodes        : OpcodeMap := {}
  /-- D15: words in the stack's backing block. -/
  stackSize      : Nat := 256
  /-- R54, D17: start of general memory; no rule of the core reads it but the default of `resetEp`. -/
  memStart       : Word := 0x0010
  /-- R126, D17: the interrupt-entry address. -/
  intEntry       : Word := 0x0000
  /-- R139, D17: the execution pointer after reset. -/
  resetEp        : Word := memStart
  /-- R140, D16: what every register but EP holds at reset. -/
  regReset       : RegReset := .zero
  /-- R41, D8: read offset and bank signed when an address is formed. -/
  addrSigned     : Bool := false
  /-- R90, D6: bits of operand b that are the shift count. -/
  shiftCountBits : Nat := 5
  /-- R90, D6: the kind of right shift. -/
  shrKind        : ShrKind := .arithmetic
  /-- D5: NOOP's secondary result. -/
  noopSecondary  : NoopSecondary := .operandB
  deriving DecidableEq, Repr

/-- The configuration of `State.reset`: the spec's defaults, and as `BLOCKS` the one block that
spec/95_test_vectors.md takes where a vector does not say otherwise, a read-write block "ram" of 0x200 words, all
zero.  DESIGN CHOICE (log entry 2): the spec gives `BLOCKS` no default. -/
def Config.standard : Config where
  blocks := [{ name := "ram", readOnly := false, init := .fresh 0x200 }]

/-- R140: with `REG_RESET = arbitrary` each register but EP holds "a word drawn at reset": a FREE VALUE, one per
register, in the order of R20.  Nothing constrains it (log entry 3). -/
opaque Config.resetDraw : Nat → Word

end Sys2Proof
end

