-- ==== Sys2Proof/Machine/State.lean ====
section
/-! DEFINITION. The state of the machine (rule R34), the reasons a step can stop, and the state after reset
(rules R139, R140).  State is plain data. -/

namespace Sys2Proof.Machine

/-- R119: "The core raises no synchronous exception"; every anomaly degrades to a defined result.  No instruction and
no step of the model faults, so there is no constructor: a fault cannot be built.  Safe: it is what the spec says. -/
inductive Fault where
  deriving DecidableEq, Repr

/-- Why a step can refuse. -/
inductive Refusal where
  /-- An instruction that has no meaning in `exec` yet, named as spec/opcode_table.json names it.  Raised by `exec`
  alone, and by none of its arms now, since every instruction has its meaning.  Safe: the machine would stop where the
  hardware goes on. -/
  | notModelled (mnemonic : String)
  deriving DecidableEq, Repr

/-- R20: the eleven register cells. -/
inductive Reg where
  | r0 | r1 | r2 | r3
  | acc0 | acc1
  | flags
  | sp
  | ep
  | mbe
  | intc
  deriving DecidableEq, Repr

/-- R120: a diagnostic `report(kind, info)`, one constructor per kind, its argument the info. -/
inductive Report where
  /-- R37; the linear address (an integer: rule R41 forms negative ones when `addrSigned`). -/
  | memOobRead (address : Int)
  /-- R38; the linear address. -/
  | memOobWrite (address : Int)
  /-- R46; SP after the decrement. -/
  | stackOobRead (sp : Word)
  /-- R45; SP before the increment. -/
  | stackOobWrite (sp : Word)
  /-- R80; the raw value. -/
  | regInvalidRead (raw : Word)
  /-- R81; the raw value. -/
  | regInvalidWrite (raw : Word)
  /-- R86; the cleaned opcode. -/
  | unknownOpcode (opc : BitVec 10)
  /-- R90; the ALU kind. -/
  | unknownAluOp (kind : BitVec 4)
  /-- R91; the comparison kind. -/
  | unknownComparison (kind : BitVec 4)
  deriving DecidableEq, Repr

/-- Sparse words by index: pairs of an index and a word, in the canonical form of `Cells.wf` (Ops.lean): indexes
strictly rising, and no entry equal to what an unlisted index reads as.  The machine is word-addressed (R50), so a cell
is a word (log entry 6). -/
abbrev Cells := List (Nat × Word)

/-- R34: the architectural state, and after it the model's own fields. -/
structure State where
  /-- R23: general-purpose register 0. -/
  r0 : Word
  /-- R23: general-purpose register 1. -/
  r1 : Word
  /-- R23: general-purpose register 2. -/
  r2 : Word
  /-- R23: general-purpose register 3, the target of jumps. -/
  r3 : Word
  /-- R24: accumulator 0, the ALU's primary result. -/
  acc0 : Word
  /-- R24: accumulator 1, the ALU's secondary result. -/
  acc1 : Word
  /-- R26: the flags register. -/
  flags : Word
  /-- R28: the stack pointer. -/
  sp : Word
  /-- R25: the execution pointer. -/
  ep : Word
  /-- R29: the memory-bank-extension register. -/
  mbe : Word
  /-- R30: the interrupt-code register. -/
  intc : Word
  /-- R31: the pending-interrupt flag. -/
  pending : Bool
  /-- R32: the content of the memory blocks, by linear address; an unlisted address reads as loaded. -/
  mem : Cells
  /-- R32, R43: the content of the stack's backing block, by index; an unlisted index reads as 0. -/
  stack : Cells
  /-- R9: the parameters, fixed for the life of a run (the model's own field, log entry 1). -/
  cfg : Config
  /-- R15: what the input collaborator has queued, the oldest first (the model's own field, log entry 10). -/
  inQueue : List Word
  /-- R16: every value the output collaborator has accepted, the oldest first (the model's own field, log entry 9). -/
  outAccepted : List Word
  /-- R18: every report emitted, the oldest first (the model's own field, log entry 8). -/
  reports : List Report
  deriving DecidableEq, Repr

/-- R34, R140: what the register of place `i` in the order of R20 holds at reset (EP apart). -/
def resetWord (cfg : Config) (i : Nat) : Word :=
  match cfg.regReset with
  | .zero => 0
  | .arbitrary => Config.resetDraw i

/-- R139: the machine right after its creation with the parameters `cfg`: the blocks as loaded, the stack block
zero-filled, every register at its reset value and EP at `RESET_EP`, no interrupt pending. -/
def State.resetWith (cfg : Config) : State where
  r0 := resetWord cfg 0
  r1 := resetWord cfg 1
  r2 := resetWord cfg 2
  r3 := resetWord cfg 3
  acc0 := resetWord cfg 4
  acc1 := resetWord cfg 5
  flags := resetWord cfg 6
  sp := resetWord cfg 7
  ep := cfg.resetEp
  mbe := resetWord cfg 9
  intc := resetWord cfg 10
  pending := false
  mem := []
  stack := []
  cfg := cfg
  inQueue := []
  outAccepted := []
  reports := []

/-- R34, R139: the machine right after reset, with the standard parameters (log entries 2, 3, 4). -/
def State.reset : State := State.resetWith Config.standard

end Sys2Proof.Machine
end

