-- ==== Sys2Proof/Machine/Ops.lean ====
section
/-! DEFINITION. The named operations over registers, memory, stack and ports (spec/20_memory.md), the pending
interrupt, and taking it (spec/60_exceptions.md).  Every meaning is built from these. -/

namespace Sys2Proof.Machine

/-! ### Registers (R21) -/

/-- R21: `get()` of a register cell. -/
def State.getReg (s : State) : Reg → Word
  | .r0 => s.r0
  | .r1 => s.r1
  | .r2 => s.r2
  | .r3 => s.r3
  | .acc0 => s.acc0
  | .acc1 => s.acc1
  | .flags => s.flags
  | .sp => s.sp
  | .ep => s.ep
  | .mbe => s.mbe
  | .intc => s.intc

/-- R21: `set(v)` of a register cell. -/
def State.setReg (s : State) (r : Reg) (v : Word) : State :=
  match r with
  | .r0 => { s with r0 := v }
  | .r1 => { s with r1 := v }
  | .r2 => { s with r2 := v }
  | .r3 => { s with r3 := v }
  | .acc0 => { s with acc0 := v }
  | .acc1 => { s with acc1 := v }
  | .flags => { s with flags := v }
  | .sp => { s with sp := v }
  | .ep => { s with ep := v }
  | .mbe => { s with mbe := v }
  | .intc => { s with intc := v }

/-- R21: `increment()`, 16-bit wraparound. -/
def State.increment (s : State) (r : Reg) : State := s.setReg r (s.getReg r + 1)

/-- R21: `decrement()`, 16-bit wraparound. -/
def State.decrement (s : State) (r : Reg) : State := s.setReg r (s.getReg r - 1)

/-! ### Reports (R18) -/

/-- R18: `report(kind, info)`.  It changes no architectural state; the model records it. -/
def State.report (s : State) (r : Report) : State := { s with reports := s.reports ++ [r] }

/-- A report that may be absent. -/
def State.reportOpt (s : State) (r : Option Report) : State :=
  match r with
  | none => s
  | some r => s.report r

/-! ### Cells -/

/-- What index `a` holds, `d` where it is not listed. -/
def cellGet (d : Word) : Cells → Nat → Word
  | [], _ => d
  | (k, w) :: m, a => if a = k then w else cellGet d m a

/-- The cells with `v` at index `a`, where an unlisted `a` reads as `d`; the canonical form is kept. -/
def cellSet (d : Word) (a : Nat) (v : Word) : Cells → Cells
  | [] => if v = d then [] else [(a, v)]
  | (k, w) :: m =>
    if a < k then (if v = d then (k, w) :: m else (a, v) :: (k, w) :: m)
    else if a = k then (if v = d then m else (a, v) :: m)
    else (k, w) :: cellSet d a v m

/-- The canonical form: indexes strictly rising, and no entry equal to what an unlisted index reads as. -/
abbrev Cells.wf (unlisted : Nat → Word) (m : Cells) : Prop :=
  (m.map Prod.fst).Pairwise (· < ·) ∧ ∀ c ∈ m, c.2 ≠ unlisted c.1

/-! ### The memory mapper (R35 to R41) -/

/-- R17: a block's size. -/
def blockSize (b : Block) : Nat :=
  match b.init with
  | .fresh n => n
  | .loaded ws => ws.length

/-- R17: the word a block holds at an offset when the machine is created. -/
def blockInitial (b : Block) (offset : Nat) : Word :=
  match b.init with
  | .fresh _ => 0
  | .loaded ws => ws.getD offset 0

/-- R35: `T`, the total flat size. -/
def totalSize (bs : List Block) : Nat := (bs.map blockSize).sum

/-- R36: the walk of `Resolve`, from block `k` on with the remainder `r`. -/
def resolveFrom (k : Nat) : List Block → Nat → Option (Nat × Nat)
  | [], _ => none
  | b :: bs, r => if r < blockSize b then some (k, r) else resolveFrom (k + 1) bs (r - blockSize b)

/-- R36: `Resolve(A)`, the block number and the offset that a linear address names. -/
def resolve (bs : List Block) (addr : Nat) : Option (Nat × Nat) := resolveFrom 0 bs addr

/-- R36, R41: `Resolve` of an address as R41 forms it: a negative one is treated as not covered. -/
def resolveInt (bs : List Block) (addr : Int) : Option (Nat × Nat) :=
  match addr with
  | .ofNat a => resolve bs a
  | .negSucc _ => none

/-- R39: whether block `k` is read-only. -/
def blockReadOnly (bs : List Block) (k : Nat) : Bool :=
  match bs[k]? with
  | some b => b.readOnly
  | none => false

/-- R34: the word at a linear address as loaded: what an address that `State.mem` does not list reads as. -/
def initialWord (bs : List Block) (addr : Nat) : Word :=
  match resolve bs addr with
  | some (k, r) =>
    match bs[k]? with
    | some b => blockInitial b r
    | none => 0
  | none => 0

/-- R32: what the blocks hold at a linear address; 0 where no block covers it. -/
def State.wordAt (s : State) (addr : Nat) : Word :=
  match resolve s.cfg.blocks addr with
  | some _ => cellGet (initialWord s.cfg.blocks addr) s.mem addr
  | none => 0

/-- R34: the canonical form of `State.mem`. -/
abbrev Memory.wf (s : State) : Prop := Cells.wf (initialWord s.cfg.blocks) s.mem

/-- R37: `MemRead(A, 1)`. -/
def memRead (addr : Int) (s : State) : Word × State :=
  match resolveInt s.cfg.blocks addr with
  | some _ => (s.wordAt addr.toNat, s)
  | none => (0, s.report (.memOobRead addr))

/-- Store a word in the cell of a linear address, the canonical form kept. -/
def State.storeWord (s : State) (addr : Nat) (v : Word) : State :=
  { s with mem := cellSet (initialWord s.cfg.blocks addr) addr v s.mem }

/-- R38: `MemWrite(A, 1, v)`: a read-only block drops the write silently, an uncovered address drops it with a
report. -/
def memWrite (addr : Int) (v : Word) (s : State) : State :=
  match resolveInt s.cfg.blocks addr with
  | some (k, _) => if blockReadOnly s.cfg.blocks k then s else s.storeWord addr.toNat v
  | none => s.report (.memOobWrite addr)

/-- R41: `LinAddr(offset)`, from the bank register as it stands.  DESIGN CHOICE (log entry 17): with `ADDR_SIGNED`, a
positive bank and a negative offset, the rule's sum is not negative and is taken as it is, where decision D8 calls every
negative offset out of range. -/
def linAddr (s : State) (offset : Word) : Int :=
  if s.cfg.addrSigned then s16 s.mbe * 65536 + s16 offset
  else (u16 s.mbe : Int) * 65536 + (u16 offset : Int)

/-! ### The stack (R43 to R47) -/

/-- R43: what the stack's backing block holds at an index; 0 beyond its size (R44). -/
def State.stackAt (s : State) (i : Nat) : Word :=
  if i < s.cfg.stackSize then cellGet 0 s.stack i else 0

/-- The canonical form of `State.stack`; the block is zero-filled at reset (D15). -/
abbrev Stack.wf (s : State) : Prop := Cells.wf (fun _ => 0) s.stack

/-- R45: `StackPush(v)`: write at SP when it lies in the block, then increment SP, always. -/
def stackPush (v : Word) (s : State) : State :=
  let s1 :=
    if u16 s.sp < s.cfg.stackSize then { s with stack := cellSet 0 (u16 s.sp) v s.stack }
    else s.report (.stackOobWrite s.sp)
  s1.increment .sp

/-- R46: `StackPop()`: decrement SP, always, then read there when it lies in the block. -/
def stackPop (s : State) : Word × State :=
  let s1 := s.decrement .sp
  if u16 s1.sp < s.cfg.stackSize then (s1.stackAt (u16 s1.sp), s1)
  else (0, s1.report (.stackOobRead s1.sp))

/-! ### The ports (R15, R16, R57) -/

/-- R15: `in_poll()`: the oldest queued value, taken from the queue; 0 when none is queued. -/
def inPoll (s : State) : Word × State :=
  match s.inQueue with
  | [] => (0, s)
  | v :: q => (v, { s with inQueue := q })

/-- R16: `out_accept(v)`: the value goes to the output collaborator unchanged, 0xFFFF included. -/
def outAccept (v : Word) (s : State) : State := { s with outAccepted := s.outAccepted ++ [v] }

/-! ### Interrupts (R122 to R131) -/

/-- R123: `pend_interrupt(code)`, the effect of INTERRUPT and of `raise_interrupt`. -/
def pendInterrupt (code : Word) (s : State) : State := { s with intc := code, pending := true }

/-- R126, R127: `Service()`, taking the pending interrupt: the flag is cleared and EP goes to the one fixed entry
address.  Nothing is saved.  There is no return operation beside it: R129, "There is no return-from-interrupt
instruction and nothing to restore"; a handler continues by writing EP (a jump or a MOVE). -/
def service (s : State) : State := { s with pending := false, ep := s.cfg.intEntry }

end Sys2Proof.Machine
end

