-- ==== Sys2Proof/Syntax.lean ====
section
/-! DEFINITION. The abstract syntax: one constructor of `Instr` per row of spec/opcode_table.json, in its order.
An operand keeps its three addressing-mode flag bits and its raw word as fetched (rules R64, R65), the bits that its
instruction ignores too (rule R68), so that nothing of an encoding is lost. -/

namespace Sys2Proof

/-- R64, R65: one operand as it stands in the instruction: its flag bits `IMMk`, `PTRk`, `MEMk` and its raw word. -/
structure Operand where
  imm : Bool
  ptr : Bool
  mem : Bool
  raw : Word
  deriving DecidableEq, Repr

/-- R69: the instructions.  The rows of the table that share a mnemonic (MATH.UNK twice, JUMP.UNK three times) each
have a constructor; one that stands for several opcodes has the kind `OPC[3:0]` as its first argument.  The opcodes in
the comments are the spec's defaults; the opcode values are a parameter (`OpcodeMap`). -/
inductive Instr where
  /-- R95, cleaned opcode 0x000. -/
  | noop (a b : Operand)
  /-- R96, 0x001. -/
  | add (a b : Operand)
  /-- R97, 0x002. -/
  | sub (a b : Operand)
  /-- R98, 0x003. -/
  | mul (a b : Operand)
  /-- R99, 0x004. -/
  | div (a b : Operand)
  /-- R100, 0x005. -/
  | mod (a b : Operand)
  /-- R101, 0x006. -/
  | and (a b : Operand)
  /-- R102, 0x007. -/
  | or (a b : Operand)
  /-- R103, 0x008. -/
  | xor (a b : Operand)
  /-- R104, 0x009. -/
  | shl (a b : Operand)
  /-- R105, 0x00A. -/
  | shr (a b : Operand)
  /-- R106, 0x00B: the reserved ALU operation 11. -/
  | mathUnk11 (a b : Operand)
  /-- R106, 0x00C..0x00F: the reserved ALU operations but 11; `kind` is OPC[3:0]. -/
  | mathUnk12 (kind : BitVec 4) (a b : Operand)
  /-- R109, 0x010. -/
  | jeq (a b : Operand)
  /-- R110, 0x011. -/
  | jlt (a b : Operand)
  /-- R111, 0x012. -/
  | jle (a b : Operand)
  /-- R112, 0x013. -/
  | jgt (a b : Operand)
  /-- R113, 0x014. -/
  | jge (a b : Operand)
  /-- R114, 0x015: the reserved comparison 5. -/
  | jumpUnk5 (a b : Operand)
  /-- R114, 0x016..0x017: the reserved comparisons 6, 7; `kind` is OPC[3:0]. -/
  | jumpUnk6 (kind : BitVec 4) (a b : Operand)
  /-- R114, 0x018..0x01F: the reserved comparisons but 5, 6, 7; `kind` is OPC[3:0]. -/
  | jumpUnk8 (kind : BitVec 4) (a b : Operand)
  /-- R115, 0x020. -/
  | move (src dst : Operand)
  /-- R118, 0x040; param1 is fetched and never resolved. -/
  | int (src ignored : Operand)
  /-- R86, every other cleaned opcode. -/
  | unknown (opc : BitVec 10) (a b : Operand)
  deriving DecidableEq, Repr

end Sys2Proof
end

