-- ==== Sys2Proof/Machine/Operands.lean ====
section
/-! DEFINITION. The register address map, the register, stack and port dispatch, and the resolution of operands
(spec/10_state.md section 1, spec/40_cycle.md sections 2 to 4). -/

namespace Sys2Proof.Machine

/-! ### Register addresses -/

/-- R20: what a register address can name. -/
inductive RegTarget where
  | cell (r : Reg)
  | stack
  | input
  | output
  deriving DecidableEq, Repr

/-- R20: the register cells, the stack pseudo-address and the ports, in the order of the rule. -/
def regTargets : List RegTarget :=
  [.cell .r0, .cell .r1, .cell .r2, .cell .r3, .cell .acc0, .cell .acc1, .cell .flags, .cell .sp, .cell .ep,
    .cell .mbe, .cell .intc, .stack, .input, .output]

/-- R20: the register address of a name. -/
def addressOf (m : RegisterMap) : RegTarget → Word
  | .cell .r0 => m.r0
  | .cell .r1 => m.r1
  | .cell .r2 => m.r2
  | .cell .r3 => m.r3
  | .cell .acc0 => m.acc0
  | .cell .acc1 => m.acc1
  | .cell .flags => m.flags
  | .cell .sp => m.sp
  | .cell .ep => m.ep
  | .cell .mbe => m.mbe
  | .cell .intc => m.intc
  | .stack => m.stack
  | .input => m.input
  | .output => m.output

/-- R20, D1: what a register address names, compared as the raw word.  Any other value names nothing. -/
def regTarget (m : RegisterMap) (raw : Word) : Option RegTarget :=
  regTargets.find? fun t => addressOf m t == raw

/-- R80: `RegRead(i)`: a register cell, a pop, a poll of the input port; anything else reads 0 with a report. -/
def regRead (raw : Word) (s : State) : Word × State :=
  match regTarget s.cfg.regMap raw with
  | some (.cell r) => (s.getReg r, s)
  | some .stack => stackPop s
  | some .input => inPoll s
  | some .output => (0, s.report (.regInvalidRead raw))
  | none => (0, s.report (.regInvalidRead raw))

/-- R81: `RegWrite(i, v)`: a register cell, a push, the output port; anything else is dropped with a report. -/
def regWrite (raw : Word) (v : Word) (s : State) : State :=
  match regTarget s.cfg.regMap raw with
  | some (.cell r) => s.setReg r v
  | some .stack => stackPush v s
  | some .output => outAccept v s
  | some .input => s.report (.regInvalidWrite raw)
  | none => s.report (.regInvalidWrite raw)

/-! ### Source operands -/

/-- R66: the four source modes. -/
inductive SrcMode where
  | immediate
  | pointer
  | memory
  | direct
  deriving DecidableEq, Repr

/-- R66: a source's mode, "in priority order". -/
def srcMode (o : Operand) : SrcMode :=
  if o.imm then .immediate
  else if o.ptr then .pointer
  else if o.mem then .memory
  else .direct

/-- R82: `ResolveSrc(k)`: a source operand's value. -/
def resolveSrc (o : Operand) (s : State) : Word × State :=
  match srcMode o with
  | .immediate => (o.raw, s)
  | .pointer =>
    let p := regRead o.raw s
    memRead (linAddr p.2 p.1) p.2
  | .memory => memRead (linAddr s o.raw) s
  | .direct => regRead o.raw s

/-! ### MOVE's destination -/

/-- R67: the three destination modes. -/
inductive DstMode where
  | pointer
  | memory
  | direct
  deriving DecidableEq, Repr

/-- R67: a destination's mode; `IMM1` is not read. -/
def dstMode (o : Operand) : DstMode :=
  if o.ptr then .pointer
  else if o.mem then .memory
  else .direct

/-- R83: a resolved destination: a linear address or a register address. -/
inductive Dest where
  | memory (addr : Int)
  | register (raw : Word)
  deriving DecidableEq, Repr

/-- R83: `ResolveDst()`: the pointer step is one level only. -/
def resolveDst (o : Operand) (s : State) : Dest × State :=
  match dstMode o with
  | .pointer =>
    let p := regRead o.raw s
    (.memory (linAddr p.2 p.1), p.2)
  | .memory => (.memory (linAddr s o.raw), s)
  | .direct => (.register o.raw, s)

/-- R83: `WriteDst(d, v)`. -/
def writeDst (d : Dest) (v : Word) (s : State) : State :=
  match d with
  | .memory addr => memWrite addr v s
  | .register raw => regWrite raw v s

end Sys2Proof.Machine
end

