-- ==== Sys2Proof/Machine/Interrupt.lean ====
section
/-! DEFINITION. INTERRUPT (spec/44_interrupt.md) and the unknown opcode (rule R86). -/

namespace Sys2Proof.Machine

/-- R118: `ExecInt`: resolve param0, and raise the interrupt with that code; param1 is not resolved. -/
def execInt (src : Operand) (s : State) : Host.Outcome State Fault Refusal :=
  let v := resolveSrc src s
  .next (pendInterrupt v.1 v.2)

/-- R86: `ExecUnknown`: report, and take no action; no operand is resolved. -/
def execUnknown (opc : BitVec 10) (s : State) : Host.Outcome State Fault Refusal :=
  .next (s.report (.unknownOpcode opc))

end Sys2Proof.Machine
end

