-- ==== Sys2Proof/WellFormed.lean ====
section
/-! DEFINITION. Which terms of `Instr` stand for an encoding under an opcode map, and which maps are numberings.  The
types of `Syntax.lean` admit exactly the encodable operands; the checks left are that a reserved constructor carries a
kind of its row that names nothing, and that an `unknown` does not carry an opcode of a defined class (rules R69,
R72). -/

namespace Sys2Proof

/-! ### The configuration tables -/

/-- R20: the addresses of a register address map, in the order of the rule. -/
def RegisterMap.addresses (m : RegisterMap) : List Word :=
  [m.r0, m.r1, m.r2, m.r3, m.acc0, m.acc1, m.flags, m.sp, m.ep, m.mbe, m.intc, m.stack, m.input, m.output]

/-- A register address map is a numbering: no two names share an address. -/
abbrev RegisterMap.valid (m : RegisterMap) : Prop := m.addresses.Nodup

/-- R90: the kinds that name an ALU operation, in the order of the rule. -/
def OpcodeMap.aluKinds (m : OpcodeMap) : List (BitVec 4) :=
  [m.noop, m.add, m.sub, m.mul, m.div, m.mod, m.and, m.or, m.xor, m.shl, m.shr]

/-- R91: the kinds that name a comparison, in the order of the rule. -/
def OpcodeMap.cmpKinds (m : OpcodeMap) : List (BitVec 4) :=
  [m.jeq, m.jlt, m.jle, m.jgt, m.jge]

/-- R70: the cleaned opcode is of the math class. -/
def OpcodeMap.inMath (m : OpcodeMap) (opc : BitVec 10) : Bool :=
  opc.extractLsb' 4 6 == m.mathHigh && (m.fullRanges || m.aluKinds.contains (opc.extractLsb' 0 4))

/-- R70: the cleaned opcode is of the jump class. -/
def OpcodeMap.inJump (m : OpcodeMap) (opc : BitVec 10) : Bool :=
  opc.extractLsb' 4 6 == m.jumpHigh && (m.fullRanges || m.cmpKinds.contains (opc.extractLsb' 0 4))

/-- The opcode values are a numbering: no two instructions share a cleaned opcode. -/
abbrev OpcodeMap.valid (m : OpcodeMap) : Prop :=
  m.aluKinds.Nodup ∧ m.cmpKinds.Nodup ∧ m.mathHigh ≠ m.jumpHigh ∧ m.move ≠ m.int ∧
    m.inMath m.move = false ∧ m.inMath m.int = false ∧ m.inJump m.move = false ∧ m.inJump m.int = false

/-! ### Instructions -/

/-- R92: the kind names no ALU operation, and the math class takes it as an unknown one. -/
def OpcodeMap.mathReserved (m : OpcodeMap) (kind : BitVec 4) : Bool :=
  m.fullRanges && !m.aluKinds.contains kind

/-- R92: the kind names no comparison, and the jump class takes it as an unknown one. -/
def OpcodeMap.jumpReserved (m : OpcodeMap) (kind : BitVec 4) : Bool :=
  m.fullRanges && !m.cmpKinds.contains kind

/-- R70, R72: the cleaned opcode is of no handler class. -/
def OpcodeMap.isUnknown (m : OpcodeMap) (opc : BitVec 10) : Bool :=
  !m.inMath opc && !m.inJump opc && (opc != m.move) && (opc != m.int)

/-- The well-formed instructions: those that some triple of words encodes. -/
def Instr.wf (m : OpcodeMap) : Instr → Bool
  | .noop _ _ => true
  | .add _ _ => true
  | .sub _ _ => true
  | .mul _ _ => true
  | .div _ _ => true
  | .mod _ _ => true
  | .and _ _ => true
  | .or _ _ => true
  | .xor _ _ => true
  | .shl _ _ => true
  | .shr _ _ => true
  | .mathUnk11 _ _ => m.mathReserved 11
  | .mathUnk12 kind _ _ => m.mathReserved kind && (kind != 11)
  | .jeq _ _ => true
  | .jlt _ _ => true
  | .jle _ _ => true
  | .jgt _ _ => true
  | .jge _ _ => true
  | .jumpUnk5 _ _ => m.jumpReserved 5
  | .jumpUnk6 kind _ _ => m.jumpReserved kind && (kind == 6 || kind == 7)
  | .jumpUnk8 kind _ _ => m.jumpReserved kind && !(kind == 5 || kind == 6 || kind == 7)
  | .move _ _ => true
  | .int _ _ => true
  | .unknown opc _ _ => m.isUnknown opc

end Sys2Proof
end

