-- ==== Sys2Proof/Decode.lean ====
section
/-! DEFINITION. The decoder and the encoder, from spec/30_encoding.md and rule R78.  Every triple of words decodes
(rule R72); the decoder on a list of words rejects, by name, only a list that holds no whole instruction. -/

namespace Sys2Proof

/-! ### Decoding -/

/-- R64, R78: `OPC = op[9:0]`, the cleaned opcode. -/
def cleanedOpcode (op : Word) : BitVec 10 := op.extractLsb' 0 10

/-- R64, R78: param0 with its flags `IMM0 = op[15]`, `PTR0 = op[13]`, `MEM0 = op[11]`. -/
def decodeOperand0 (op raw0 : Word) : Operand :=
  { imm := op.getLsbD 15, ptr := op.getLsbD 13, mem := op.getLsbD 11, raw := raw0 }

/-- R64, R78: param1 with its flags `IMM1 = op[14]`, `PTR1 = op[12]`, `MEM1 = op[10]`. -/
def decodeOperand1 (op raw1 : Word) : Operand :=
  { imm := op.getLsbD 14, ptr := op.getLsbD 12, mem := op.getLsbD 10, raw := raw1 }

/-- R70: the handler classes, and the unknown path. -/
inductive OpClass where
  | math
  | jump
  | move
  | interrupt
  | unknown
  deriving DecidableEq, Repr

/-- R90: the ALU operations; `reserved` is one that its kind does not name. -/
inductive AluOp where
  | noop
  | add
  | sub
  | mul
  | div
  | mod
  | and
  | or
  | xor
  | shl
  | shr
  | reserved (kind : BitVec 4)
  deriving DecidableEq, Repr

/-- R91: the comparisons; `reserved` is one that its kind does not name. -/
inductive CmpOp where
  | equal
  | less
  | lessOrEqual
  | greater
  | greaterOrEqual
  | reserved (kind : BitVec 4)
  deriving DecidableEq, Repr

/-- R90, D2: the kind of an ALU operation. -/
def OpcodeMap.aluKind (m : OpcodeMap) : AluOp → BitVec 4
  | .noop => m.noop
  | .add => m.add
  | .sub => m.sub
  | .mul => m.mul
  | .div => m.div
  | .mod => m.mod
  | .and => m.and
  | .or => m.or
  | .xor => m.xor
  | .shl => m.shl
  | .shr => m.shr
  | .reserved kind => kind

/-- R91, D3: the kind of a comparison. -/
def OpcodeMap.cmpKind (m : OpcodeMap) : CmpOp → BitVec 4
  | .equal => m.jeq
  | .less => m.jlt
  | .lessOrEqual => m.jle
  | .greater => m.jgt
  | .greaterOrEqual => m.jge
  | .reserved kind => kind

/-- R90: the ALU operations that have a name. -/
def namedAluOps : List AluOp := [.noop, .add, .sub, .mul, .div, .mod, .and, .or, .xor, .shl, .shr]

/-- R91: the comparisons that have a name. -/
def namedCmpOps : List CmpOp := [.equal, .less, .lessOrEqual, .greater, .greaterOrEqual]

/-- R90: the ALU operation of a kind. -/
def OpcodeMap.aluOp (m : OpcodeMap) (kind : BitVec 4) : AluOp :=
  (namedAluOps.find? fun o => m.aluKind o == kind).getD (.reserved kind)

/-- R91: the comparison of a kind. -/
def OpcodeMap.cmpOp (m : OpcodeMap) (kind : BitVec 4) : CmpOp :=
  (namedCmpOps.find? fun o => m.cmpKind o == kind).getD (.reserved kind)

/-- R70, D4: the kind belongs to the math class. -/
def OpcodeMap.mathHas (m : OpcodeMap) (kind : BitVec 4) : Bool :=
  m.fullRanges || namedAluOps.any fun o => m.aluKind o == kind

/-- R70, D4: the kind belongs to the jump class. -/
def OpcodeMap.jumpHas (m : OpcodeMap) (kind : BitVec 4) : Bool :=
  m.fullRanges || namedCmpOps.any fun o => m.cmpKind o == kind

/-- R70: the class is a function of the cleaned opcode alone. -/
def classOf (m : OpcodeMap) (opc : BitVec 10) : OpClass :=
  if opc.extractLsb' 4 6 = m.mathHigh ∧ m.mathHas (opc.extractLsb' 0 4) then .math
  else if opc.extractLsb' 4 6 = m.jumpHigh ∧ m.jumpHas (opc.extractLsb' 0 4) then .jump
  else if opc = m.move then .move
  else if opc = m.int then .interrupt
  else .unknown

/-- R69: the instruction of the math class that runs an ALU operation. -/
def AluOp.instr (o : AluOp) (a b : Operand) : Instr :=
  match o with
  | .noop => .noop a b
  | .add => .add a b
  | .sub => .sub a b
  | .mul => .mul a b
  | .div => .div a b
  | .mod => .mod a b
  | .and => .and a b
  | .or => .or a b
  | .xor => .xor a b
  | .shl => .shl a b
  | .shr => .shr a b
  | .reserved kind => if kind = 11 then .mathUnk11 a b else .mathUnk12 kind a b

/-- R69: the instruction of the jump class that makes a comparison. -/
def CmpOp.instr (o : CmpOp) (a b : Operand) : Instr :=
  match o with
  | .equal => .jeq a b
  | .less => .jlt a b
  | .lessOrEqual => .jle a b
  | .greater => .jgt a b
  | .greaterOrEqual => .jge a b
  | .reserved kind =>
    if kind = 5 then .jumpUnk5 a b
    else if kind = 6 ∨ kind = 7 then .jumpUnk6 kind a b
    else .jumpUnk8 kind a b

/-- R78, R79: decode the three words of an instruction.  It never fails. -/
def decode (m : OpcodeMap) (op raw0 raw1 : Word) : Instr :=
  let opc := cleanedOpcode op
  let a := decodeOperand0 op raw0
  let b := decodeOperand1 op raw1
  match classOf m opc with
  | .math => (m.aluOp (opc.extractLsb' 0 4)).instr a b
  | .jump => (m.cmpOp (opc.extractLsb' 0 4)).instr a b
  | .move => .move a b
  | .interrupt => .int a b
  | .unknown => .unknown opc a b

/-- Why the decoder of a list of words rejects. -/
inductive DecodeReject where
  /-- Fewer than three words are left (R63: "a decoder always consumes three words"). -/
  | truncated
  deriving DecidableEq, Repr

/-- R63: decode the first instruction of a list of words, and give the words after it. -/
def decodeWords (m : OpcodeMap) (ws : List Word) : Except DecodeReject (Instr × List Word) :=
  match ws with
  | op :: raw0 :: raw1 :: rest => .ok (decode m op raw0 raw1, rest)
  | _ => .error .truncated

/-- The three words of an instruction whose bits are `w`, bit 0 the least significant bit of the first word; the bits
from `nbits` up are 0. -/
def tableWords (nbits w : Nat) : List Word :=
  let v := w % 2 ^ nbits
  [BitVec.ofNat 16 v, BitVec.ofNat 16 (v >>> 16), BitVec.ofNat 16 (v >>> 32)]

/-- The instruction that the decoder reads from an instruction of spec/opcode_table.json whose bits are `w`: with the
opcode values of that table. -/
def decodeTableWord (nbits w : Nat) : Option Instr :=
  match decodeWords .standard (tableWords nbits w) with
  | .ok (i, _) => some i
  | .error _ => none

/-! ### Encoding -/

/-- R69: the cleaned opcode of an instruction. -/
def Instr.opcode (m : OpcodeMap) : Instr → BitVec 10
  | .noop _ _ => m.mathHigh ++ m.noop
  | .add _ _ => m.mathHigh ++ m.add
  | .sub _ _ => m.mathHigh ++ m.sub
  | .mul _ _ => m.mathHigh ++ m.mul
  | .div _ _ => m.mathHigh ++ m.div
  | .mod _ _ => m.mathHigh ++ m.mod
  | .and _ _ => m.mathHigh ++ m.and
  | .or _ _ => m.mathHigh ++ m.or
  | .xor _ _ => m.mathHigh ++ m.xor
  | .shl _ _ => m.mathHigh ++ m.shl
  | .shr _ _ => m.mathHigh ++ m.shr
  | .mathUnk11 _ _ => m.mathHigh ++ (11 : BitVec 4)
  | .mathUnk12 kind _ _ => m.mathHigh ++ kind
  | .jeq _ _ => m.jumpHigh ++ m.jeq
  | .jlt _ _ => m.jumpHigh ++ m.jlt
  | .jle _ _ => m.jumpHigh ++ m.jle
  | .jgt _ _ => m.jumpHigh ++ m.jgt
  | .jge _ _ => m.jumpHigh ++ m.jge
  | .jumpUnk5 _ _ => m.jumpHigh ++ (5 : BitVec 4)
  | .jumpUnk6 kind _ _ => m.jumpHigh ++ kind
  | .jumpUnk8 kind _ _ => m.jumpHigh ++ kind
  | .move _ _ => m.move
  | .int _ _ => m.int
  | .unknown opc _ _ => opc

/-- R69: the class of an instruction. -/
def Instr.cls : Instr → OpClass
  | .noop _ _ => .math
  | .add _ _ => .math
  | .sub _ _ => .math
  | .mul _ _ => .math
  | .div _ _ => .math
  | .mod _ _ => .math
  | .and _ _ => .math
  | .or _ _ => .math
  | .xor _ _ => .math
  | .shl _ _ => .math
  | .shr _ _ => .math
  | .mathUnk11 _ _ => .math
  | .mathUnk12 _ _ _ => .math
  | .jeq _ _ => .jump
  | .jlt _ _ => .jump
  | .jle _ _ => .jump
  | .jgt _ _ => .jump
  | .jge _ _ => .jump
  | .jumpUnk5 _ _ => .jump
  | .jumpUnk6 _ _ _ => .jump
  | .jumpUnk8 _ _ _ => .jump
  | .move _ _ => .move
  | .int _ _ => .interrupt
  | .unknown _ _ _ => .unknown

/-- The operand in param0. -/
def Instr.operand0 : Instr → Operand
  | .noop a _ => a
  | .add a _ => a
  | .sub a _ => a
  | .mul a _ => a
  | .div a _ => a
  | .mod a _ => a
  | .and a _ => a
  | .or a _ => a
  | .xor a _ => a
  | .shl a _ => a
  | .shr a _ => a
  | .mathUnk11 a _ => a
  | .mathUnk12 _ a _ => a
  | .jeq a _ => a
  | .jlt a _ => a
  | .jle a _ => a
  | .jgt a _ => a
  | .jge a _ => a
  | .jumpUnk5 a _ => a
  | .jumpUnk6 _ a _ => a
  | .jumpUnk8 _ a _ => a
  | .move src _ => src
  | .int src _ => src
  | .unknown _ a _ => a

/-- The operand in param1. -/
def Instr.operand1 : Instr → Operand
  | .noop _ b => b
  | .add _ b => b
  | .sub _ b => b
  | .mul _ b => b
  | .div _ b => b
  | .mod _ b => b
  | .and _ b => b
  | .or _ b => b
  | .xor _ b => b
  | .shl _ b => b
  | .shr _ b => b
  | .mathUnk11 _ b => b
  | .mathUnk12 _ _ b => b
  | .jeq _ b => b
  | .jlt _ b => b
  | .jle _ b => b
  | .jgt _ b => b
  | .jge _ b => b
  | .jumpUnk5 _ b => b
  | .jumpUnk6 _ _ b => b
  | .jumpUnk8 _ _ b => b
  | .move _ dst => dst
  | .int _ ignored => ignored
  | .unknown _ _ b => b

/-- R64, R73: the opcode word, its fields from the most significant bit down:
IMM0, IMM1, PTR0, PTR1, MEM0, MEM1, OPC. -/
def opcodeWord (a b : Operand) (opc : BitVec 10) : Word :=
  BitVec.ofBool a.imm ++ BitVec.ofBool b.imm ++ BitVec.ofBool a.ptr ++ BitVec.ofBool b.ptr ++
    BitVec.ofBool a.mem ++ BitVec.ofBool b.mem ++ opc

/-- R63: the three words of an instruction. -/
def encode (m : OpcodeMap) (i : Instr) : List Word :=
  [opcodeWord i.operand0 i.operand1 (i.opcode m), i.operand0.raw, i.operand1.raw]

/-! ### The opcode table -/

/-- One row of spec/opcode_table.json: it stands for the opcode words `w` with `w AND mask = pattern`. -/
structure OpcodeRow where
  mnemonic : String
  pattern  : Word
  mask     : Word
  deriving DecidableEq, Repr

/-- R69: the rows of spec/opcode_table.json but its last, the fallback UNKNOWN, which "matches only when no row above
matches". -/
def opcodeRows : List OpcodeRow :=
  [ ⟨"NOOP", 0x0000, 0x03FF⟩, ⟨"ADD", 0x0001, 0x03FF⟩, ⟨"SUB", 0x0002, 0x03FF⟩, ⟨"MUL", 0x0003, 0x03FF⟩,
    ⟨"DIV", 0x0004, 0x03FF⟩, ⟨"MOD", 0x0005, 0x03FF⟩, ⟨"AND", 0x0006, 0x03FF⟩, ⟨"OR", 0x0007, 0x03FF⟩,
    ⟨"XOR", 0x0008, 0x03FF⟩, ⟨"SHL", 0x0009, 0x03FF⟩, ⟨"SHR", 0x000A, 0x03FF⟩, ⟨"MATH.UNK", 0x000B, 0x03FF⟩,
    ⟨"MATH.UNK", 0x000C, 0x03FC⟩, ⟨"JEQ", 0x0010, 0x03FF⟩, ⟨"JLT", 0x0011, 0x03FF⟩, ⟨"JLE", 0x0012, 0x03FF⟩,
    ⟨"JGT", 0x0013, 0x03FF⟩, ⟨"JGE", 0x0014, 0x03FF⟩, ⟨"JUMP.UNK", 0x0015, 0x03FF⟩,
    ⟨"JUMP.UNK", 0x0016, 0x03FE⟩, ⟨"JUMP.UNK", 0x0018, 0x03F8⟩, ⟨"MOVE", 0x0020, 0x03FF⟩,
    ⟨"INT", 0x0040, 0x03FF⟩ ]

/-- The rows that an opcode word matches. -/
def matchingRows (op : Word) : List OpcodeRow :=
  opcodeRows.filter fun r => op &&& r.mask == r.pattern

/-- The mnemonic of an instruction, as the table has it. -/
def Instr.mnemonic : Instr → String
  | .noop _ _ => "NOOP"
  | .add _ _ => "ADD"
  | .sub _ _ => "SUB"
  | .mul _ _ => "MUL"
  | .div _ _ => "DIV"
  | .mod _ _ => "MOD"
  | .and _ _ => "AND"
  | .or _ _ => "OR"
  | .xor _ _ => "XOR"
  | .shl _ _ => "SHL"
  | .shr _ _ => "SHR"
  | .mathUnk11 _ _ => "MATH.UNK"
  | .mathUnk12 _ _ _ => "MATH.UNK"
  | .jeq _ _ => "JEQ"
  | .jlt _ _ => "JLT"
  | .jle _ _ => "JLE"
  | .jgt _ _ => "JGT"
  | .jge _ _ => "JGE"
  | .jumpUnk5 _ _ => "JUMP.UNK"
  | .jumpUnk6 _ _ _ => "JUMP.UNK"
  | .jumpUnk8 _ _ _ => "JUMP.UNK"
  | .move _ _ => "MOVE"
  | .int _ _ => "INT"
  | .unknown _ _ _ => "UNKNOWN"

/-! ### Operand forms and pseudo-instructions (rules R73, R74) -/

/-- R73: `#n`, an immediate. -/
def Operand.immediate (n : Word) : Operand := { imm := true, ptr := false, mem := false, raw := n }

/-- R73: a register name or `%n`, direct mode. -/
def Operand.direct (n : Word) : Operand := { imm := false, ptr := false, mem := false, raw := n }

/-- R73: `[n]`, memory-direct. -/
def Operand.memoryAt (n : Word) : Operand := { imm := false, ptr := false, mem := true, raw := n }

/-- R73: `[name]` or `[%n]`, pointer-indirect through a register address. -/
def Operand.pointerAt (n : Word) : Operand := { imm := false, ptr := true, mem := false, raw := n }

/-- R74: `JMP`, an unconditional jump to r3. -/
def asmJmp : Instr := .jeq (.immediate 0) (.immediate 0)

/-- R74: `PUSH x`. -/
def asmPush (m : RegisterMap) (x : Operand) : Instr := .move x (.direct m.stack)

/-- R74: `POP d`. -/
def asmPop (m : RegisterMap) (d : Operand) : Instr := .move (.direct m.stack) d

/-- R74: `GOTO #t`. -/
def asmGoto (m : RegisterMap) (t : Word) : Instr := .move (.immediate t) (.direct m.ep)

/-- R74: `SPIN` at the address `here`: it loops on itself for ever. -/
def asmSpin (m : RegisterMap) (here : Word) : Instr := asmGoto m here

/-- R74: `FLUSH`, the flush value 0xFFFF to the output port. -/
def asmFlush (m : RegisterMap) : Instr := .move (.immediate 0xFFFF) (.direct m.output)

end Sys2Proof
end

