-- ==== Sys2Proof/Machine/Flags.lean ====
section
/-! DEFINITION. The flags byte (rules R26, R89). -/

namespace Sys2Proof.Machine

/-- R89: `Flags(in0, in1, out0, out1)`, from bit 7 down to bit 0.  Bit 6 is inverted, as the source states it (I1). -/
def flagsByte (in0 in1 out0 out1 : Word) : BitVec 8 :=
  BitVec.ofBool (decide (in0 = in1)) ++
  BitVec.ofBool (!decide (s16 in0 < s16 in1)) ++
  BitVec.ofBool (decide (out0 ≠ 0)) ++
  BitVec.ofBool (decide (s16 out0 < 0)) ++
  BitVec.ofBool (decide (s16 out0 > 0)) ++
  BitVec.ofBool (decide (out1 ≠ 0)) ++
  BitVec.ofBool (decide (s16 out1 < 0)) ++
  BitVec.ofBool (decide (s16 out1 > 0))

/-- R26, D18: what the math and jump handlers write to FLAGS: the byte in bits 7..0, and 0 in bits 15..8. -/
def flagsWord (f : BitVec 8) : Word := f.setWidth 16

end Sys2Proof.Machine
end

