-- ==== Sys2Proof/Machine/Alu.lean ====
section
/-! DEFINITION. The ALU (spec/41_math.md section 1): a pure function of the low opcode bits and two operands. -/

namespace Sys2Proof.Machine

/-- R88: what the ALU answers, and the one report it may emit. -/
structure AluResult where
  primary      : Word
  secondary    : Word
  flags        : BitVec 8
  isComparison : Bool
  comparison   : Bool
  report       : Option Report
  deriving DecidableEq, Repr

/-- R90: `TQ(a, b)`, the quotient of the signed readings rounded toward zero. -/
def truncQuot (a b : Word) : Int := (s16 a).tdiv (s16 b)

/-- R90: `TR(a, b)`, the remainder that belongs to `TQ`. -/
def truncRem (a b : Word) : Int := s16 a - truncQuot a b * s16 b

/-- R90, D6: `SC(b)`, the shift count. -/
def shiftCount (cfg : Config) (b : Word) : Nat := u16 b % 2 ^ cfg.shiftCountBits

/-- R90: NOOP passes its operands through; the secondary may be configured to 0 (D5). -/
def aluNoop (cfg : Config) (a b : Word) : Word × Word :=
  match cfg.noopSecondary with
  | .operandB => (a, b)
  | .zero => (a, 0)

/-- R90: add. -/
def aluAdd (a b : Word) : Word × Word := (trunc16 (s16 a + s16 b), 0)

/-- R90: subtract. -/
def aluSub (a b : Word) : Word × Word := (trunc16 (s16 a - s16 b), 0)

/-- R90: multiply; the low 16 bits of the product are kept. -/
def aluMul (a b : Word) : Word × Word := (trunc16 (s16 a * s16 b), 0)

/-- R90: divide, the quotient first; (-1, 0) when b is 0. -/
def aluDiv (a b : Word) : Word × Word :=
  if b = 0 then (0xFFFF, 0x0000) else (trunc16 (truncQuot a b), trunc16 (truncRem a b))

/-- R90: modulo, the remainder first; (0, -1) when b is 0. -/
def aluMod (a b : Word) : Word × Word :=
  if b = 0 then (0x0000, 0xFFFF) else (trunc16 (truncRem a b), trunc16 (truncQuot a b))

/-- R90: bitwise and. -/
def aluAnd (a b : Word) : Word × Word := (a &&& b, 0)

/-- R90: bitwise or. -/
def aluOr (a b : Word) : Word × Word := (a ||| b, 0)

/-- R90: bitwise exclusive or. -/
def aluXor (a b : Word) : Word × Word := (a ^^^ b, 0)

/-- R90: left shift, zeros in. -/
def aluShl (cfg : Config) (a b : Word) : Word × Word :=
  (trunc16 ((u16 a : Int) * 2 ^ shiftCount cfg b), 0)

/-- R90: right shift, of the signed reading (arithmetic) or of the unsigned one (logical), rounded down. -/
def aluShr (cfg : Config) (a b : Word) : Word × Word :=
  match cfg.shrKind with
  | .arithmetic => (trunc16 ((s16 a).fdiv (2 ^ shiftCount cfg b)), 0)
  | .logical => (trunc16 ((u16 a / 2 ^ shiftCount cfg b : Nat) : Int), 0)

/-- R90: `Operate`: the primary and the secondary result of an ALU operation, and the report of a reserved one (R92). -/
def operate (cfg : Config) (o : AluOp) (a b : Word) : (Word × Word) × Option Report :=
  match o with
  | .noop => (aluNoop cfg a b, none)
  | .add => (aluAdd a b, none)
  | .sub => (aluSub a b, none)
  | .mul => (aluMul a b, none)
  | .div => (aluDiv a b, none)
  | .mod => (aluMod a b, none)
  | .and => (aluAnd a b, none)
  | .or => (aluOr a b, none)
  | .xor => (aluXor a b, none)
  | .shl => (aluShl cfg a b, none)
  | .shr => (aluShr cfg a b, none)
  | .reserved kind => ((a, b), some (.unknownAluOp kind))

/-- R91: `Compare`, and the report of a reserved comparison, whose result is false (D7). -/
def compare (o : CmpOp) (a b : Word) : Bool × Option Report :=
  match o with
  | .equal => (decide (a = b), none)
  | .less => (decide (s16 a < s16 b), none)
  | .lessOrEqual => (decide (s16 a ≤ s16 b), none)
  | .greater => (decide (s16 a > s16 b), none)
  | .greaterOrEqual => (decide (s16 a ≥ s16 b), none)
  | .reserved kind => (false, some (.unknownComparison kind))

/-- R88: the ALU without a comparison request: an operation's results and their flags. -/
def aluOperate (cfg : Config) (o : AluOp) (a b : Word) : AluResult :=
  let r := operate cfg o a b
  { primary := r.1.1, secondary := r.1.2, flags := flagsByte a b r.1.1 r.1.2, isComparison := false,
    comparison := false, report := r.2 }

/-- R88: the ALU with a comparison request: zero results, and the flags of the operands. -/
def aluCompare (o : CmpOp) (a b : Word) : AluResult :=
  let c := compare o a b
  { primary := 0, secondary := 0, flags := flagsByte a b a b, isComparison := true, comparison := c.1,
    report := c.2 }

/-- R88: `ALU(op5, a, b)`: bit 4 is the comparison request, bits 3..0 are the kind (R71), which the opcode values
number (D2, D3). -/
def alu (cfg : Config) (op5 : BitVec 5) (a b : Word) : AluResult :=
  let kind := op5.extractLsb' 0 4
  if op5.getLsbD 4 then aluCompare (cfg.opcodes.cmpOp kind) a b
  else aluOperate cfg (cfg.opcodes.aluOp kind) a b

end Sys2Proof.Machine
end

