-- ==== Sys2Proof/Machine/Jump.lean ====
section
/-! DEFINITION. The jump class (spec/42_jump.md). -/

namespace Sys2Proof.Machine

/-- R107: `ExecJump`: resolve both sources, compare, write FLAGS always, and go to r3 when the comparison is true. -/
def jumpClass (o : CmpOp) (a b : Operand) (s : State) : Host.Outcome State Fault Refusal :=
  let x := resolveSrc a s
  let y := resolveSrc b x.2
  let r := aluCompare o x.1 y.1
  let s1 := { y.2.reportOpt r.report with flags := flagsWord r.flags }
  .next (if r.comparison then { s1 with ep := s1.r3 } else s1)

/-- R109: JEQ. -/
def execJeq (a b : Operand) (s : State) : Host.Outcome State Fault Refusal := jumpClass .equal a b s

/-- R110: JLT. -/
def execJlt (a b : Operand) (s : State) : Host.Outcome State Fault Refusal := jumpClass .less a b s

/-- R111: JLE. -/
def execJle (a b : Operand) (s : State) : Host.Outcome State Fault Refusal := jumpClass .lessOrEqual a b s

/-- R112: JGT. -/
def execJgt (a b : Operand) (s : State) : Host.Outcome State Fault Refusal := jumpClass .greater a b s

/-- R113: JGE. -/
def execJge (a b : Operand) (s : State) : Host.Outcome State Fault Refusal := jumpClass .greaterOrEqual a b s

/-- R114: the reserved comparison 5: never taken, reported. -/
def execJumpUnk5 (a b : Operand) (s : State) : Host.Outcome State Fault Refusal := jumpClass (.reserved 5) a b s

/-- R114: the reserved comparisons 6 and 7: never taken, reported. -/
def execJumpUnk6 (kind : BitVec 4) (a b : Operand) (s : State) : Host.Outcome State Fault Refusal :=
  jumpClass (.reserved kind) a b s

/-- R114: the other reserved comparisons: never taken, reported. -/
def execJumpUnk8 (kind : BitVec 4) (a b : Operand) (s : State) : Host.Outcome State Fault Refusal :=
  jumpClass (.reserved kind) a b s

end Sys2Proof.Machine
end

