-- ==== Sys2Proof/Machine/Math.lean ====
section
/-! DEFINITION. The math class (spec/41_math.md sections 3 and 4). -/

namespace Sys2Proof.Machine

/-- R94: `ExecMath`: resolve both sources, param0's first, run the ALU, and write ACC0, ACC1 and FLAGS. -/
def mathClass (o : AluOp) (a b : Operand) (s : State) : Host.Outcome State Fault Refusal :=
  let x := resolveSrc a s
  let y := resolveSrc b x.2
  let r := aluOperate s.cfg o x.1 y.1
  .next { y.2.reportOpt r.report with acc0 := r.primary, acc1 := r.secondary, flags := flagsWord r.flags }

/-- R95: NOOP passes its operands through to the accumulators. -/
def execNoop (a b : Operand) (s : State) : Host.Outcome State Fault Refusal := mathClass .noop a b s

/-- R96: ADD. -/
def execAdd (a b : Operand) (s : State) : Host.Outcome State Fault Refusal := mathClass .add a b s

/-- R97: SUB. -/
def execSub (a b : Operand) (s : State) : Host.Outcome State Fault Refusal := mathClass .sub a b s

/-- R98: MUL. -/
def execMul (a b : Operand) (s : State) : Host.Outcome State Fault Refusal := mathClass .mul a b s

/-- R99: DIV. -/
def execDiv (a b : Operand) (s : State) : Host.Outcome State Fault Refusal := mathClass .div a b s

/-- R100: MOD. -/
def execMod (a b : Operand) (s : State) : Host.Outcome State Fault Refusal := mathClass .mod a b s

/-- R101: AND. -/
def execAnd (a b : Operand) (s : State) : Host.Outcome State Fault Refusal := mathClass .and a b s

/-- R102: OR. -/
def execOr (a b : Operand) (s : State) : Host.Outcome State Fault Refusal := mathClass .or a b s

/-- R103: XOR. -/
def execXor (a b : Operand) (s : State) : Host.Outcome State Fault Refusal := mathClass .xor a b s

/-- R104: SHL. -/
def execShl (a b : Operand) (s : State) : Host.Outcome State Fault Refusal := mathClass .shl a b s

/-- R105: SHR. -/
def execShr (a b : Operand) (s : State) : Host.Outcome State Fault Refusal := mathClass .shr a b s

/-- R106: the reserved ALU operation 11: pass-through, reported. -/
def execMathUnk11 (a b : Operand) (s : State) : Host.Outcome State Fault Refusal := mathClass (.reserved 11) a b s

/-- R106: the other reserved ALU operations: pass-through, reported. -/
def execMathUnk12 (kind : BitVec 4) (a b : Operand) (s : State) : Host.Outcome State Fault Refusal :=
  mathClass (.reserved kind) a b s

end Sys2Proof.Machine
end

