-- ==== Sys2Proof/Machine/Move.lean ====
section
/-! DEFINITION. MOVE (spec/43_move.md): the only load, store, register move, push, pop, port access and indirect
jump. -/

namespace Sys2Proof.Machine

/-- R115: `ExecMove`: resolve the source's value, then the destination, then write. -/
def execMove (src dst : Operand) (s : State) : Host.Outcome State Fault Refusal :=
  let v := resolveSrc src s
  let d := resolveDst dst v.2
  .next (writeDst d.1 v.1 d.2)

end Sys2Proof.Machine
end

