-- ==== Sys2Proof/Machine/Dispatch.lean ====
section
/-! DEFINITION. What each instruction does (rules R76, R79), one arm per row of the opcode table. -/

namespace Sys2Proof.Machine

def exec (i : Instr) (s : State) : Host.Outcome State Fault Refusal :=
  match i with
  | .noop a b => Sys2Proof.Machine.execNoop a b s
  | .add a b => Sys2Proof.Machine.execAdd a b s
  | .sub a b => Sys2Proof.Machine.execSub a b s
  | .mul a b => Sys2Proof.Machine.execMul a b s
  | .div a b => Sys2Proof.Machine.execDiv a b s
  | .mod a b => Sys2Proof.Machine.execMod a b s
  | .and a b => Sys2Proof.Machine.execAnd a b s
  | .or a b => Sys2Proof.Machine.execOr a b s
  | .xor a b => Sys2Proof.Machine.execXor a b s
  | .shl a b => Sys2Proof.Machine.execShl a b s
  | .shr a b => Sys2Proof.Machine.execShr a b s
  | .mathUnk11 a b => Sys2Proof.Machine.execMathUnk11 a b s
  | .mathUnk12 kind a b => Sys2Proof.Machine.execMathUnk12 kind a b s
  | .jeq a b => Sys2Proof.Machine.execJeq a b s
  | .jlt a b => Sys2Proof.Machine.execJlt a b s
  | .jle a b => Sys2Proof.Machine.execJle a b s
  | .jgt a b => Sys2Proof.Machine.execJgt a b s
  | .jge a b => Sys2Proof.Machine.execJge a b s
  | .jumpUnk5 a b => Sys2Proof.Machine.execJumpUnk5 a b s
  | .jumpUnk6 kind a b => Sys2Proof.Machine.execJumpUnk6 kind a b s
  | .jumpUnk8 kind a b => Sys2Proof.Machine.execJumpUnk8 kind a b s
  | .move src dst => Sys2Proof.Machine.execMove src dst s
  | .int src _ => Sys2Proof.Machine.execInt src s
  | .unknown opc _ _ => Sys2Proof.Machine.execUnknown opc s

end Sys2Proof.Machine
end

