-- ==== Sys2Proof/Machine/Fetch.lean ====
section
/-! DEFINITION. The fetch of an instruction (rules R42, R77). -/

namespace Sys2Proof.Machine

/-- R77, R42: read the word at the execution pointer, unbanked, and advance the pointer by one. -/
def fetchWord (s : State) : Word × State :=
  let w := memRead (u16 s.ep : Int) s
  (w.1, w.2.increment .ep)

/-- R77: the three words of an instruction. -/
structure Fetched where
  op   : Word
  raw0 : Word
  raw1 : Word
  deriving DecidableEq, Repr

/-- R77: `Fetch()`: three words, the execution pointer three further. -/
def fetch (s : State) : Fetched × State :=
  let op := fetchWord s
  let raw0 := fetchWord op.2
  let raw1 := fetchWord raw0.2
  ({ op := op.1, raw0 := raw0.1, raw1 := raw1.1 }, raw1.2)

/-- R78: the instruction that the fetched words encode. -/
def Fetched.instr (f : Fetched) (m : OpcodeMap) : Instr := decode m f.op f.raw0 f.raw1

/-! ### Placing an instruction (R17, log entry 7) -/

/-- Whether the blocks cover the three addresses that the next fetch reads. -/
def fetchCovered (s : State) : Bool :=
  decide (u16 s.ep < totalSize s.cfg.blocks) && decide (u16 (s.ep + 1) < totalSize s.cfg.blocks) &&
    decide (u16 (s.ep + 2) < totalSize s.cfg.blocks)

/-- The machine with blocks that cover the next fetch: a zero-filled block up to address 0xFFFF is added where they
do not. -/
def coverFetch (s : State) : State :=
  if fetchCovered s then s
  else
    let filler : Block :=
      { name := "fetch", readOnly := false, init := .fresh (0x10000 - totalSize s.cfg.blocks) }
    { s with cfg := { s.cfg with blocks := s.cfg.blocks ++ [filler] } }

/-- Store words from an address on, the address wrapping at 16 bits. -/
def placeWords : List Word → Word → State → State
  | [], _, s => s
  | w :: ws, addr, s => placeWords ws (addr + 1) (s.storeWord (u16 addr) w)

/-- Store words where the next step fetches, with no interrupt pending. -/
def placeAtFetch (ws : List Word) (s : State) : State :=
  { placeWords ws s.ep (coverFetch s) with pending := false }

end Sys2Proof.Machine
end

