-- ==== Sys2Proof/Machine/Step.lean ====
section
/-! DEFINITION. One instruction cycle (rule R76), and the placing of an instruction where the next step fetches. -/

namespace Sys2Proof.Machine

/-- R76: `Step()`: service a pending interrupt and nothing else, or fetch, decode and execute one instruction. -/
def step (s : State) : Host.Outcome State Fault Refusal :=
  if s.pending then .next (service s)
  else
    let f := fetch s
    exec (f.1.instr s.cfg.opcodes) f.2

/-- The machine with the instruction of the bits `w` placed at its execution pointer, no interrupt pending, so that
the very next step fetches and runs it (log entry 7).  It stands for the loader (R17): it writes read-only blocks too,
and where the blocks do not cover the three fetch addresses it adds a zero-filled block up to address 0xFFFF. -/
def State.withFetchWord (s : State) (nbits w : Nat) : State :=
  placeAtFetch (tableWords nbits w) s

end Sys2Proof.Machine
end

