-- ==== Sys2Proof/Machine/Interface.lean ====
section
/-! DEFINITION. The core's interfaces beside `step` (spec/00_scope.md section 5): what the world outside does to the
core between two steps (R11), and what it reads. -/

namespace Sys2Proof.Machine

/-- R13, R122: `raise_interrupt(code)`, from any collaborator outside the instruction stream. -/
def raiseInterrupt (code : Word) (s : State) : State := pendInterrupt code s

/-- R15, R57: a value comes to the input collaborator's queue, behind those that wait. -/
def inputArrives (v : Word) (s : State) : State := { s with inQueue := s.inQueue ++ [v] }

/-- R17: what the loader reads back of block `k`, whose first word stands at the linear address `base`. -/
def readBackFrom (s : State) (base : Nat) : Nat → List Word
  | 0 => []
  | n + 1 => s.wordAt base :: readBackFrom s (base + 1) n

/-- R17: what the loader reads back of block `k`. -/
def readBack (s : State) (k : Nat) : List Word :=
  match s.cfg.blocks[k]? with
  | some b => readBackFrom s (totalSize (s.cfg.blocks.take k)) (blockSize b)
  | none => []

/-- R16: what the output collaborator has emitted and what it still buffers, from the values it accepted in order and
what it holds already: "value `-1`" (0xFFFF) means "emit everything buffered so far, then reset". -/
def collaboratorOutput (emitted buffered : List Word) : List Word → List Word × List Word
  | [] => (emitted, buffered)
  | v :: vs =>
    if v = 0xFFFF then collaboratorOutput (emitted ++ buffered) [] vs
    else collaboratorOutput emitted (buffered ++ [v]) vs

/-- R11, R12: one transaction at the core's interface. -/
inductive Transaction where
  | step
  | raiseInterrupt (code : Word)
  | inputArrives (v : Word)
  deriving DecidableEq, Repr

/-- R11: a transaction, indivisible (R87). -/
def transact (t : Transaction) (s : State) : Host.Outcome State Fault Refusal :=
  match t with
  | .step => step s
  | .raiseInterrupt code => .next (raiseInterrupt code s)
  | .inputArrives v => .next (inputArrives v s)

end Sys2Proof.Machine
end

