-- ==== Sys2Proof/Safety.lean ====
section
/-! DEFINITION. What a sound state and a safe step are, and the terms in which the statements speak. -/

namespace Sys2Proof.Machine

/-! ### Parameters -/

/-- R9, D15, D26: the parameters are in the ranges the spec gives them: the register addresses and the opcode values are
numberings, with the one value that the source gives (ADD, R69). -/
abbrev Config.inRange (cfg : Config) : Prop :=
  cfg.regMap.valid ∧ cfg.opcodes.valid ∧ cfg.opcodes.mathHigh ++ cfg.opcodes.add = 0x001#10 ∧
    1 ≤ cfg.stackSize ∧ cfg.stackSize ≤ 32768 ∧ totalSize cfg.blocks ≤ 2 ^ 32

/-! ### The invariant -/

/-- R36, R39: some block covers the linear address, and it is not read-only. -/
def writableAt (bs : List Block) (addr : Nat) : Bool :=
  match resolve bs addr with
  | some (k, _) => !blockReadOnly bs k
  | none => false

/-- The invariant of every step: the memory and the stack block are in canonical form; every word that differs from
what the loader supplied stands in a block that may be written (R39, R40); no word of the stack block stands outside
it (R44). -/
abbrev State.Inv (s : State) : Prop :=
  Memory.wf s ∧ Stack.wf s ∧
    (∀ c ∈ s.mem, writableAt s.cfg.blocks c.1 = true) ∧ (∀ c ∈ s.stack, c.1 < s.cfg.stackSize)

/-! ### Operands -/

/-- R53, R66: resolving a source operand reads the register address `t`: directly, or as the pointer step. -/
abbrev srcReads (m : RegisterMap) (o : Operand) (t : RegTarget) : Prop :=
  (srcMode o = .direct ∨ srcMode o = .pointer) ∧ regTarget m o.raw = some t

/-- R53, R67: resolving MOVE's destination reads the register address `t`: the pointer step alone. -/
abbrev dstReads (m : RegisterMap) (o : Operand) (t : RegTarget) : Prop :=
  dstMode o = .pointer ∧ regTarget m o.raw = some t

/-- R67, R81: MOVE's destination is the register address `t`. -/
abbrev dstIs (m : RegisterMap) (o : Operand) (t : RegTarget) : Prop :=
  dstMode o = .direct ∧ regTarget m o.raw = some t

/-- The instruction is a MOVE whose destination is the register address `t`. -/
abbrev movesTo (m : RegisterMap) (i : Instr) (t : RegTarget) : Prop :=
  ∃ src dst, i = .move src dst ∧ dstIs m dst t

/-- The instruction is a MOVE whose destination is a word of memory. -/
abbrev movesToMemory (i : Instr) : Prop :=
  ∃ src dst, i = .move src dst ∧ dstMode dst ≠ .direct

/-- R84: an operand that the instruction resolves reads the register address `t`. -/
abbrev readsAddress (m : RegisterMap) (i : Instr) (t : RegTarget) : Prop :=
  (i.cls ≠ .unknown ∧ srcReads m i.operand0 t) ∨
    ((i.cls = .math ∨ i.cls = .jump) ∧ srcReads m i.operand1 t) ∨
    (i.cls = .move ∧ dstReads m i.operand1 t)

/-- R24, R27, R30, R107: the registers that an instruction writes by itself, not as a MOVE's destination. -/
def implicitWrite (i : Instr) (r : Reg) : Bool :=
  match i.cls with
  | .math => r == .acc0 || r == .acc1 || r == .flags
  | .jump => r == .flags || r == .ep
  | .move => false
  | .interrupt => r == .intc
  | .unknown => false

/-! ### Next states of the statements -/

/-- R94: the state after a math instruction, from the state after its operands' resolution. -/
def mathNext (s : State) (primary secondary : Word) (f : BitVec 8) : State :=
  { s with acc0 := primary, acc1 := secondary, flags := f.setWidth 16 }

/-- R107: the state after a jump, from the state after its operands' resolution. -/
def jumpNext (s : State) (f : BitVec 8) (taken : Bool) : State :=
  { s with flags := f.setWidth 16, ep := if taken then s.r3 else s.ep }

/-! ### What stays -/

/-- Every word of the blocks reads the same in both states. -/
abbrev sameMemory (s t : State) : Prop := ∀ addr : Nat, t.wordAt addr = s.wordAt addr

/-- Every word of the stack block reads the same in both states. -/
abbrev sameStackBlock (s t : State) : Prop := ∀ i : Nat, t.stackAt i = s.stackAt i

/-! ### Runs -/

/-- R142, D20: the end of a run as an observer takes it: EP stands at a SPIN (`MOVE #a, EP` at address a, `IMM0` = 1
and all other flags 0), and no interrupt is pending. -/
def atSpin (s : State) : Bool :=
  !s.pending &&
    [s.wordAt (u16 s.ep), s.wordAt (u16 (s.ep + 1)), s.wordAt (u16 (s.ep + 2))] ==
      encode s.cfg.opcodes (asmSpin s.cfg.regMap s.ep)

/-- Many transactions, stopping at the first that does not answer a next state. -/
def runTransactions : List Transaction → State → Host.Outcome State Fault Refusal
  | [], s => .next s
  | t :: ts, s =>
    match transact t s with
    | .next s1 => runTransactions ts s1
    | .fault r => .fault r
    | .refused r => .refused r

/-- R48: push the words of a list, the first word first. -/
def pushAll : List Word → State → State
  | [], s => s
  | v :: vs, s => pushAll vs (stackPush v s)

/-- R48: pop a number of words: the words in the order they come, and the state after. -/
def popMany : Nat → State → List Word × State
  | 0, s => ([], s)
  | n + 1, s =>
    let p := stackPop s
    let rest := popMany n p.2
    (p.1 :: rest.1, rest.2)

end Sys2Proof.Machine
end

