-- ==== Sys2Proof/Certificates/Slice0/Obligations.lean ====
section
/-! DEFINITION. The statements for the provers.  A docstring names the rule of spec/ that a statement formalises; where
a clause rests on a decision of the spec ("the spec's own choice", spec/92_eei_decisions.md) or on a choice of the
model, it names the decision or the log entry. -/

open Sys2Proof Sys2Proof.Machine

/-! ### Encoding -/

/-- R63, R64: decoding what the encoder writes gives the instruction back, and leaves the words after it, whatever the
opcode values (D2, D3, D4; log entry 13), as long as they are a numbering. -/
def Obligations.DecodeReadsWhatEncodeWrites : Prop :=
  ∀ (m : OpcodeMap) (i : Instr) (rest : List Word), m.valid → i.wf m = true →
    decodeWords m (encode m i ++ rest) = .ok (i, rest)

/-- R72: every triple of words is the encoding of exactly the well-formed instruction that it decodes to, whatever the
opcode values (D2, D3, D4; log entry 13). -/
def Obligations.EncodeWritesWhatDecodeReads : Prop :=
  ∀ (m : OpcodeMap) (op raw0 raw1 : Word),
    encode m (decode m op raw0 raw1) = [op, raw0, raw1] ∧ (decode m op raw0 raw1).wf m = true

/-- R78: decode splits the opcode word into the six flag bits and the cleaned opcode, and never fails. -/
def Obligations.DecodeSplitsTheOpcodeWord : Prop :=
  ∀ (m : OpcodeMap) (op raw0 raw1 : Word) (rest : List Word), ∃ i : Instr,
    decodeWords m (op :: raw0 :: raw1 :: rest) = .ok (i, rest) ∧
    i.operand0 = { imm := op.getLsbD 15, ptr := op.getLsbD 13, mem := op.getLsbD 11, raw := raw0 } ∧
    i.operand1 = { imm := op.getLsbD 14, ptr := op.getLsbD 12, mem := op.getLsbD 10, raw := raw1 } ∧
    i.opcode m = op.extractLsb' 0 10

/-- R69, spec/opcode_table.json: with the default opcode values, an opcode word matches one row of the table, whose
mnemonic is the decoded instruction's, or none (the fallback), and then it decodes to UNKNOWN.  The default values are
the spec's own choice (D2, D3, D4; log entry 13). -/
def Obligations.OpcodeTableGivesTheInstruction : Prop :=
  ∀ op raw0 raw1 : Word,
    (matchingRows op).map OpcodeRow.mnemonic =
      if (decode .standard op raw0 raw1).cls = .unknown then [] else [(decode .standard op raw0 raw1).mnemonic]

/-- R70: the class is a function of the cleaned opcode alone: of its high six bits for math and jumps, of its value for
MOVE and INTERRUPT, whatever the opcode values; then the ranges of the defaults.  The default ranges are the spec's own
choice (D4; log entry 13). -/
def Obligations.HandlerClassOfTheOpcode : Prop :=
  (∀ (m : OpcodeMap) (op raw0 raw1 : Word), m.valid → m.fullRanges = true →
    ((decode m op raw0 raw1).cls = .math ↔ op.extractLsb' 4 6 = m.mathHigh) ∧
    ((decode m op raw0 raw1).cls = .jump ↔ op.extractLsb' 4 6 = m.jumpHigh) ∧
    ((decode m op raw0 raw1).cls = .move ↔ op.extractLsb' 0 10 = m.move) ∧
    ((decode m op raw0 raw1).cls = .interrupt ↔ op.extractLsb' 0 10 = m.int)) ∧
  (∀ op raw0 raw1 : Word,
    let n := op.toNat % 1024
    let c := (decode .standard op raw0 raw1).cls
    (c = .math ↔ n < 16) ∧
    (c = .jump ↔ 16 ≤ n ∧ n < 32) ∧
    (c = .move ↔ n = 0x020) ∧
    (c = .interrupt ↔ n = 0x040) ∧
    (c = .unknown ↔ 32 ≤ n ∧ n ≠ 0x020 ∧ n ≠ 0x040))

/-- Words written out from the encoding of R64 (and spec/95_test_vectors.md) decode to the instructions they stand
for, one of each class, with the default opcode values.  But for ADD's these are the spec's own
choice (D2, D3, D4; log entry 13). -/
def Obligations.SampleWordsDecode : Prop :=
  decode .standard 0x1001 0x0002 0x0001 = .add (.direct 2) (.pointerAt 1) ∧
  decode .standard 0xC004 0x0007 0x0002 = .div (.immediate 7) (.immediate 2) ∧
  decode .standard 0x4011 0x0000 0x0003 = .jlt (.direct 0) (.immediate 3) ∧
  decode .standard 0x8420 0x7777 0x0005 = .move (.immediate 0x7777) (.memoryAt 5) ∧
  decode .standard 0x8040 0x0007 0x0000 = .int (.immediate 7) (.direct 0) ∧
  decode .standard 0x03FF 0x000B 0x000B = .unknown 0x3FF (.direct 11) (.direct 11)

/-! ### Registers and operands -/

/-- R82: a source operand's value, its mode chosen in priority order, with the rule's corner cases and example.  Which
raw word names what is the register address map, whose defaults are the spec's own choice (D1; log entry 12), and so is
that OUT reads as an address that names nothing (D14; log entry 12). -/
def Obligations.SourceOperandModes : Prop :=
  ∀ (o : Operand) (s : State),
    let t := regTarget s.cfg.regMap o.raw
    (o.imm = true → resolveSrc o s = (o.raw, s)) ∧
    (o.imm = false → o.ptr = true →
      resolveSrc o s = memRead (linAddr (regRead o.raw s).2 (regRead o.raw s).1) (regRead o.raw s).2) ∧
    (o.imm = false → o.ptr = false → o.mem = true → resolveSrc o s = memRead (linAddr s o.raw) s) ∧
    (o.imm = false → o.ptr = false → o.mem = false → resolveSrc o s = regRead o.raw s) ∧
    (o.imm = false → o.ptr = true → t = some .stack →
      resolveSrc o s = memRead (linAddr (stackPop s).2 (stackPop s).1) (stackPop s).2) ∧
    (o.imm = false → o.ptr = true → t = some .input →
      resolveSrc o s = memRead (linAddr (inPoll s).2 (inPoll s).1) (inPoll s).2) ∧
    (o.imm = false → o.ptr = true → t = some .output ∨ t = none →
      resolveSrc o s = memRead (linAddr s 0) (s.report (.regInvalidRead o.raw))) ∧
    (o.imm = false → o.ptr = false → o.mem = false → t = some .output ∨ t = none →
      resolveSrc o s = (0, s.report (.regInvalidRead o.raw))) ∧
    (o.imm = false → o.ptr = true → t = some (.cell .r1) →
      s.r1 = 0x0100 → s.mbe = 0 → s.wordAt 0x0100 = 0x1234 → resolveSrc o s = (0x1234, s))

/-- R20, R80, R81: what a read and a write of each register address do, for every register address map that is a
numbering; then the addresses of the default map.  The default numbering, and what a read of OUT and a write of IN do,
are the spec's own choice (D1, D14; log entry 12). -/
def Obligations.RegisterAddresses : Prop :=
  (∀ (s : State) (v : Word), s.cfg.regMap.valid →
    let m := s.cfg.regMap
    (∀ r : Reg, regRead (addressOf m (.cell r)) s = (s.getReg r, s) ∧
      regWrite (addressOf m (.cell r)) v s = s.setReg r v) ∧
    (regRead m.stack s = stackPop s ∧ regWrite m.stack v s = stackPush v s) ∧
    (regRead m.input s = inPoll s ∧ regWrite m.input v s = s.report (.regInvalidWrite m.input)) ∧
    (regRead m.output s = (0, s.report (.regInvalidRead m.output)) ∧ regWrite m.output v s = outAccept v s) ∧
    (∀ raw : Word, raw ∉ m.addresses →
      regRead raw s = (0, s.report (.regInvalidRead raw)) ∧ regWrite raw v s = s.report (.regInvalidWrite raw))) ∧
  (∀ p ∈ [(0, RegTarget.cell .r0), (1, .cell .r1), (2, .cell .r2), (3, .cell .r3), (4, .cell .acc0), (5, .cell .acc1),
      (6, .cell .flags), (7, .cell .sp), (8, .cell .ep), (9, .cell .mbe), (10, .cell .intc), (11, .stack), (12, .input),
      (13, .output)],
    regTarget .standard (BitVec.ofNat 16 p.1) = some p.2) ∧
  (∀ raw : Word, 14 ≤ u16 raw → regTarget .standard raw = none)

/-- R21: a register cell holds one word and supports get, set, increment and decrement, with 16-bit wraparound and no
overflow signaling; each changes its own cell and nothing else of the state. -/
def Obligations.RegisterCellsHoldWords : Prop :=
  ∀ (s : State) (r q : Reg) (v : Word),
    ((s.setReg r v).getReg q = if q = r then v else s.getReg q) ∧
    (u16 ((s.increment r).getReg r) = (u16 (s.getReg r) + 1) % 65536) ∧
    (u16 ((s.decrement r).getReg r) = (u16 (s.getReg r) + 65535) % 65536) ∧
    (q ≠ r → (s.increment r).getReg q = s.getReg q ∧ (s.decrement r).getReg q = s.getReg q) ∧
    ((s.setReg r v).setReg r (s.getReg r) = s) ∧
    s.increment r = s.setReg r (s.getReg r + 1) ∧
    s.decrement r = s.setReg r (s.getReg r - 1)

/-! ### Memory -/

/-- R36: the walk finds the block whose range of linear addresses holds the address, and the offset in it, and finds
none exactly at and beyond the total size.  (That the block is unique is the spec's inference from the walk.) -/
def Obligations.MapperWalkFindsTheBlock : Prop :=
  ∀ (bs : List Block) (addr : Nat),
    (∀ k r, resolve bs addr = some (k, r) ↔
      ∃ b, bs[k]? = some b ∧ r < blockSize b ∧ addr = totalSize (bs.take k) + r) ∧
    (resolve bs addr = none ↔ totalSize bs ≤ addr)

/-- R37: a memory read gives the word that the loader would read back at the block and offset, with no side effect; a
read that no block covers is reported and gives 0. -/
def Obligations.MemoryReadGivesTheBlocksWord : Prop :=
  ∀ (s : State) (addr : Nat),
    (∀ k r, resolve s.cfg.blocks addr = some (k, r) →
      (readBack s k)[r]? = some (memRead addr s).1 ∧ (memRead addr s).2 = s) ∧
    (resolve s.cfg.blocks addr = none → memRead addr s = (0, s.report (.memOobRead addr)))

/-- R38: a memory write sets the word of its block and offset and no other; a read-only block drops it silently; a
write that no block covers is reported and dropped. -/
def Obligations.MemoryWriteSetsTheBlocksWord : Prop :=
  ∀ (s : State) (addr : Nat) (v : Word), Memory.wf s →
    (∀ k r, resolve s.cfg.blocks addr = some (k, r) → blockReadOnly s.cfg.blocks k = false →
      (readBack (memWrite addr v s) k)[r]? = some v ∧
      (∀ other : Nat, other ≠ addr → (memWrite addr v s).wordAt other = s.wordAt other) ∧
      { memWrite addr v s with mem := s.mem } = s) ∧
    (∀ k r, resolve s.cfg.blocks addr = some (k, r) → blockReadOnly s.cfg.blocks k = true →
      memWrite addr v s = s) ∧
    (resolve s.cfg.blocks addr = none → memWrite addr v s = s.report (.memOobWrite addr))

/-- R62, through instructions: a MOVE of v to a memory word and then a MOVE of that word to a register gives v where
the word stands in a block that is not read-only, and the old word (0 beyond the blocks) where it does not.  The same
bank and offset name the same word whatever `ADDR_SIGNED` is (the exception for read-only blocks is the spec's
inference; `raw` is any register address of r0). -/
def Obligations.StoreThenLoadGivesTheWord : Prop :=
  ∀ (s t : State) (v n raw : Word), Memory.wf s → regTarget s.cfg.regMap raw = some (.cell .r0) →
    exec (.move (.immediate v) (.memoryAt n)) s = .next t →
    ∃ u : State, exec (.move (.memoryAt n) (.direct raw)) t = .next u ∧
      u.r0 = if 0 ≤ linAddr s n ∧ writableAt s.cfg.blocks (linAddr s n).toNat = true then v
        else if 0 ≤ linAddr s n then s.wordAt (linAddr s n).toNat else 0

/-- R40: an access at or beyond the total size is reported, reads 0 or drops the write, and changes no register, no
memory and no pending interrupt. -/
def Obligations.AccessesBeyondTheBlocksDegrade : Prop :=
  ∀ (s : State) (addr : Nat) (v : Word), totalSize s.cfg.blocks ≤ addr →
    memRead addr s = (0, { s with reports := s.reports ++ [.memOobRead addr] }) ∧
    memWrite addr v s = { s with reports := s.reports ++ [.memOobWrite addr] }

/-- R39: a write to a read-only block changes nothing and emits no report; and after any transactions a read-only block
still holds its initial content. -/
def Obligations.ReadOnlyBlocksKeepTheirContent : Prop :=
  (∀ (s : State) (addr : Nat) (v : Word) (k r : Nat), resolve s.cfg.blocks addr = some (k, r) →
    blockReadOnly s.cfg.blocks k = true → memWrite addr v s = s) ∧
  (∀ (ts : List Transaction) (s t : State), s.Inv → runTransactions ts s = .next t →
    ∀ (addr k r : Nat), resolve s.cfg.blocks addr = some (k, r) → blockReadOnly s.cfg.blocks k = true →
      t.wordAt addr = initialWord s.cfg.blocks addr)

/-- R41: the linear address is the 32-bit concatenation of the bank register and the offset, or, with `ADDR_SIGNED`,
the sum of their signed readings; a negative one, which no block covers, is reported, reads 0 and drops the write.  The
unsigned reading as default is the spec's own choice (D8; log entry 17).  That with `ADDR_SIGNED` a negative offset under
a positive bank is in range, by the rule's sum and against the words of D8, is the model's choice (log entry 17). -/
def Obligations.LinearAddressOfBankAndOffset : Prop :=
  ∀ (s : State) (offset v : Word),
    (s.cfg.addrSigned = false → linAddr s offset = ((s.mbe ++ offset : BitVec 32).toNat : Int)) ∧
    (s.cfg.addrSigned = true → linAddr s offset = s.mbe.toInt * 65536 + offset.toInt) ∧
    (linAddr s offset < 0 →
      memRead (linAddr s offset) s = (0, s.report (.memOobRead (linAddr s offset))) ∧
      memWrite (linAddr s offset) v s = s.report (.memOobWrite (linAddr s offset)))

/-! ### The stack -/

/-- R45, R46, R47: a push writes at SP and then increments it; a pop decrements SP and then reads there; outside the
block the write is dropped and the read gives 0, each with a report, and SP moves all the same.  The block of its own
and SP's moving out of bounds are the spec's own choice (D15; log entry 5). -/
def Obligations.StackAccessRules : Prop :=
  ∀ (s : State) (v : Word), Stack.wf s →
    (u16 s.sp < s.cfg.stackSize →
      (stackPush v s).stackAt (u16 s.sp) = v ∧
      (∀ i, i ≠ u16 s.sp → (stackPush v s).stackAt i = s.stackAt i) ∧
      { stackPush v s with stack := s.stack } = { s with sp := s.sp + 1 }) ∧
    (s.cfg.stackSize ≤ u16 s.sp →
      stackPush v s = { s with sp := s.sp + 1, reports := s.reports ++ [.stackOobWrite s.sp] }) ∧
    (u16 (s.sp - 1) < s.cfg.stackSize →
      stackPop s = (s.stackAt (u16 (s.sp - 1)), { s with sp := s.sp - 1 })) ∧
    (s.cfg.stackSize ≤ u16 (s.sp - 1) →
      stackPop s = (0, { s with sp := s.sp - 1, reports := s.reports ++ [.stackOobRead (s.sp - 1)] }))

/-- R48: after N pushes, N pops give the words in reverse order when every push index lies in the block, and SP is
what it was, wherever it started (the latter by D15: SP moves on every push and pop; log entry 5). -/
def Obligations.StackRoundTrip : Prop :=
  ∀ (vs : List Word) (s : State),
    (popMany vs.length (pushAll vs s)).2.sp = s.sp ∧
    (s.cfg.stackSize ≤ 32768 → Stack.wf s →
      (∀ k < vs.length, u16 (s.sp + BitVec.ofNat 16 k) < s.cfg.stackSize) →
      (popMany vs.length (pushAll vs s)).1 = vs.reverse)

/-! ### The ports -/

/-- R15: a poll gives the oldest queued value and takes it from the queue, or 0 when none is queued, and never waits;
values come in the order in which they arrived. -/
def Obligations.InputPortIsAQueue : Prop :=
  ∀ (s : State) (v raw : Word),
    (regTarget s.cfg.regMap raw = some .input → regRead raw s = inPoll s) ∧
    (s.inQueue = [] → inPoll s = (0, s)) ∧
    (s.inQueue = [] → inPoll (inputArrives v s) = (v, s)) ∧
    (s.inQueue ≠ [] → inPoll (inputArrives v s) = ((inPoll s).1, inputArrives v (inPoll s).2) ∧
      s.inQueue = (inPoll s).1 :: (inPoll s).2.inQueue)

/-- R16: a value written to the output port is accepted at once and unchanged, 0xFFFF included; the collaborator takes
0xFFFF as a flush, buffers every other value until it, and emits them in order. -/
def Obligations.OutputPortKeepsOrder : Prop :=
  (∀ (s : State) (v raw : Word), regTarget s.cfg.regMap raw = some .output →
    regWrite raw v s = { s with outAccepted := s.outAccepted ++ [v] }) ∧
  (∀ vs : List Word,
    (collaboratorOutput [] [] vs).1 ++ (collaboratorOutput [] [] vs).2 = vs.filter (· ≠ 0xFFFF)) ∧
  (∀ emitted buffered vs : List Word, 0xFFFF ∉ vs →
    collaboratorOutput emitted buffered vs = (emitted, buffered ++ vs)) ∧
  (∀ vs : List Word, collaboratorOutput [] [] (vs ++ [0xFFFF]) = (vs.filter (· ≠ 0xFFFF), []))

/-- R53, R57: a step takes at most two values from the front of the input queue, puts at most one value behind those
the output port has, and only adds reports.  (That the answers to polls are a queue of the state is the model's choice,
log entry 10, after D29.) -/
def Obligations.PortTrafficIsOrdered : Prop :=
  ∀ s t : State, step s = .next t →
    (∃ polled : List Word, polled.length ≤ 2 ∧ s.inQueue = polled ++ t.inQueue) ∧
    (∃ sent : List Word, sent.length ≤ 1 ∧ t.outAccepted = s.outAccepted ++ sent) ∧
    (∃ emitted : List Report, t.reports = s.reports ++ emitted)

/-! ### The ALU and the math instructions -/

/-- R89: the bits of the flags byte, and the flags of a comparison. -/
def Obligations.FlagsByteBits : Prop :=
  (∀ in0 in1 out0 out1 : Word,
    let f := flagsByte in0 in1 out0 out1
    (f.getLsbD 7 = true ↔ in0 = in1) ∧
    (f.getLsbD 6 = true ↔ ¬ in0.toInt < in1.toInt) ∧
    (f.getLsbD 5 = true ↔ out0 ≠ 0) ∧
    (f.getLsbD 4 = true ↔ out0.toInt < 0) ∧
    (f.getLsbD 3 = true ↔ 0 < out0.toInt) ∧
    (f.getLsbD 2 = true ↔ out1 ≠ 0) ∧
    (f.getLsbD 1 = true ↔ out1.toInt < 0) ∧
    (f.getLsbD 0 = true ↔ 0 < out1.toInt)) ∧
  (∀ (cfg : Config) (op5 : BitVec 5) (a b : Word), (alu cfg op5 a b).isComparison = true →
    (alu cfg op5 a b).flags = flagsByte a b a b)

/-- R95, R106, R92: NOOP and the reserved ALU operations pass their operands through to the accumulators, and the
reserved ones are reported.  That the pass-through gives b as secondary is the spec's own choice (D5, conflict C3; for
NOOP a parameter, log entry 14), and so are FLAGS[15:8] = 0 (D18; log entry 18) and the order of resolution (D11). -/
def Obligations.PassThroughOperations : Prop :=
  ∀ (a b : Operand) (kind : BitVec 4) (s : State),
    let x := resolveSrc a s
    let y := resolveSrc b x.2
    (s.cfg.noopSecondary = .operandB →
      exec (.noop a b) s = .next (mathNext y.2 x.1 y.1 (flagsByte x.1 y.1 x.1 y.1))) ∧
    (s.cfg.noopSecondary = .zero →
      exec (.noop a b) s = .next (mathNext y.2 x.1 0 (flagsByte x.1 y.1 x.1 0))) ∧
    exec (.mathUnk11 a b) s =
      .next (mathNext (y.2.report (.unknownAluOp 11)) x.1 y.1 (flagsByte x.1 y.1 x.1 y.1)) ∧
    exec (.mathUnk12 kind a b) s =
      .next (mathNext (y.2.report (.unknownAluOp kind)) x.1 y.1 (flagsByte x.1 y.1 x.1 y.1))

/-- R96, R93: ADD's result is the 16-bit sum; ACC1 is 0 and flag bits 2..0 are 0; overflow wraps.  FLAGS[15:8] = 0 is
the spec's own choice (D18; log entry 18), and so is the order of resolution (D11). -/
def Obligations.AddResult : Prop :=
  (∀ (a b : Operand) (s : State),
    let x := resolveSrc a s
    let y := resolveSrc b x.2
    exec (.add a b) s = .next (mathNext y.2 (x.1 + y.1) 0 (flagsByte x.1 y.1 (x.1 + y.1) 0))) ∧
  (∀ x y : Word, (flagsByte x y (x + y) 0).extractLsb' 0 3 = 0) ∧
  (∀ s : State,
    exec (.add (.immediate 5) (.immediate 3)) s = .next { s with acc0 := 8, acc1 := 0, flags := 0x68 } ∧
    exec (.add (.immediate 0x7FFF) (.immediate 1)) s = .next { s with acc0 := 0x8000, acc1 := 0, flags := 0x70 } ∧
    exec (.add (.immediate 0xFFFF) (.immediate 1)) s = .next { s with acc0 := 0, acc1 := 0, flags := 0 })

/-- R97, R93: SUB's result is param0's value minus param1's, in 16 bits.  FLAGS[15:8] = 0 (D18) and the order of
resolution (D11) are the spec's own choice. -/
def Obligations.SubResult : Prop :=
  (∀ (a b : Operand) (s : State),
    let x := resolveSrc a s
    let y := resolveSrc b x.2
    exec (.sub a b) s = .next (mathNext y.2 (x.1 - y.1) 0 (flagsByte x.1 y.1 (x.1 - y.1) 0))) ∧
  (∀ s : State,
    exec (.sub (.immediate 3) (.immediate 5)) s = .next { s with acc0 := 0xFFFE, acc1 := 0, flags := 0x30 } ∧
    exec (.sub (.immediate 0x8000) (.immediate 1)) s = .next { s with acc0 := 0x7FFF, acc1 := 0, flags := 0x28 })

/-- R98, R93: MUL keeps the low 16 bits of the product, the same for signed and unsigned operands, and ACC1 is 0.
FLAGS[15:8] = 0 (D18) and the order of resolution (D11) are the spec's own choice. -/
def Obligations.MulResult : Prop :=
  (∀ (a b : Operand) (s : State),
    let x := resolveSrc a s
    let y := resolveSrc b x.2
    exec (.mul a b) s = .next (mathNext y.2 (x.1 * y.1) 0 (flagsByte x.1 y.1 (x.1 * y.1) 0))) ∧
  (∀ s : State,
    exec (.mul (.immediate 7) (.immediate 6)) s = .next { s with acc0 := 42, acc1 := 0, flags := 0x68 } ∧
    exec (.mul (.immediate 300) (.immediate 300)) s = .next { s with acc0 := 0x5F90, acc1 := 0, flags := 0xE8 })

/-- R99, R93: DIV gives the quotient and the remainder of the signed division that truncates toward zero (the remainder
is smaller than the divisor and has the dividend's sign or is 0), and (-1, 0) on a zero divisor, with no trap.
FLAGS[15:8] = 0 (D18) and the order of resolution (D11) are the spec's own choice. -/
def Obligations.DivResult : Prop :=
  ∀ (a b : Operand) (s : State),
    let x := resolveSrc a s
    let y := resolveSrc b x.2
    (y.1 = 0 → exec (.div a b) s = .next (mathNext y.2 0xFFFF 0 (flagsByte x.1 y.1 0xFFFF 0))) ∧
    (y.1 ≠ 0 → ∃ q r : Int,
      x.1.toInt = q * y.1.toInt + r ∧ |r| < |y.1.toInt| ∧ 0 ≤ r * x.1.toInt ∧
      exec (.div a b) s =
        .next (mathNext y.2 (trunc16 q) (trunc16 r) (flagsByte x.1 y.1 (trunc16 q) (trunc16 r))))

/-- R100, R93: MOD gives the same remainder and quotient, the remainder first, and (0, -1) on a zero divisor, with no
trap.  FLAGS[15:8] = 0 (D18) and the order of resolution (D11) are the spec's own choice. -/
def Obligations.ModResult : Prop :=
  ∀ (a b : Operand) (s : State),
    let x := resolveSrc a s
    let y := resolveSrc b x.2
    (y.1 = 0 → exec (.mod a b) s = .next (mathNext y.2 0 0xFFFF (flagsByte x.1 y.1 0 0xFFFF))) ∧
    (y.1 ≠ 0 → ∃ q r : Int,
      x.1.toInt = q * y.1.toInt + r ∧ |r| < |y.1.toInt| ∧ 0 ≤ r * x.1.toInt ∧
      exec (.mod a b) s =
        .next (mathNext y.2 (trunc16 r) (trunc16 q) (flagsByte x.1 y.1 (trunc16 r) (trunc16 q))))

/-- R101, R102, R103: AND, OR and XOR combine the operands bit by bit, and ACC1 is 0.
FLAGS[15:8] = 0 (D18) and the order of resolution (D11) are the spec's own choice. -/
def Obligations.LogicResults : Prop :=
  ∀ (a b : Operand) (s : State),
    let x := resolveSrc a s
    let y := resolveSrc b x.2
    (∃ w : Word, (∀ k < 16, w.getLsbD k = (x.1.getLsbD k && y.1.getLsbD k)) ∧
      exec (.and a b) s = .next (mathNext y.2 w 0 (flagsByte x.1 y.1 w 0))) ∧
    (∃ w : Word, (∀ k < 16, w.getLsbD k = (x.1.getLsbD k || y.1.getLsbD k)) ∧
      exec (.or a b) s = .next (mathNext y.2 w 0 (flagsByte x.1 y.1 w 0))) ∧
    (∃ w : Word, (∀ k < 16, w.getLsbD k = (x.1.getLsbD k != y.1.getLsbD k)) ∧
      exec (.xor a b) s = .next (mathNext y.2 w 0 (flagsByte x.1 y.1 w 0)))

/-- R104, R90: SHL shifts left by the count `SC(b)` with zeros in: bit k of the result is bit k - count of a.  The count
rule is the spec's own choice (D6; log entry 15), as is FLAGS[15:8] = 0 (D18). -/
def Obligations.ShlResult : Prop :=
  ∀ (a b : Operand) (s : State),
    let x := resolveSrc a s
    let y := resolveSrc b x.2
    let n := y.1.toNat % 2 ^ s.cfg.shiftCountBits
    ∃ w : Word, (∀ k < 16, w.getLsbD k = (decide (n ≤ k) && x.1.getLsbD (k - n))) ∧
      exec (.shl a b) s = .next (mathNext y.2 w 0 (flagsByte x.1 y.1 w 0))

/-- R105, R90: SHR shifts right by the count `SC(b)`: bit k of the result is bit k + count of a, and beyond bit 15 a's
sign bit (arithmetic) or 0 (logical).  The kind and the count rule are the spec's own choice (D6; log entry 15), as is
FLAGS[15:8] = 0 (D18). -/
def Obligations.ShrResult : Prop :=
  ∀ (a b : Operand) (s : State),
    let x := resolveSrc a s
    let y := resolveSrc b x.2
    let n := y.1.toNat % 2 ^ s.cfg.shiftCountBits
    let fill := decide (s.cfg.shrKind = .arithmetic) && x.1.getLsbD 15
    ∃ w : Word, (∀ k < 16, w.getLsbD k = if k + n < 16 then x.1.getLsbD (k + n) else fill) ∧
      exec (.shr a b) s = .next (mathNext y.2 w 0 (flagsByte x.1 y.1 w 0))

/-! ### The jumps -/

/-- R107, R109 to R113: each jump writes FLAGS from its operands whether or not it jumps, and goes to r3 exactly when
its signed comparison holds; with the rules' examples.  FLAGS[15:8] = 0 (D18) and the reading of r3 after both
operands (D11) are the spec's own choice. -/
def Obligations.JumpResults : Prop :=
  (∀ (a b : Operand) (s : State),
    let x := resolveSrc a s
    let y := resolveSrc b x.2
    let f := flagsByte x.1 y.1 x.1 y.1
    exec (.jeq a b) s = .next (jumpNext y.2 f (decide (x.1 = y.1))) ∧
    exec (.jlt a b) s = .next (jumpNext y.2 f (decide (x.1.toInt < y.1.toInt))) ∧
    exec (.jle a b) s = .next (jumpNext y.2 f (decide (x.1.toInt ≤ y.1.toInt))) ∧
    exec (.jgt a b) s = .next (jumpNext y.2 f (decide (y.1.toInt < x.1.toInt))) ∧
    exec (.jge a b) s = .next (jumpNext y.2 f (decide (y.1.toInt ≤ x.1.toInt)))) ∧
  (∀ s : State,
    exec (.jeq (.immediate 4) (.immediate 4)) s = .next { s with ep := s.r3, flags := 0xED } ∧
    exec (.jlt (.immediate 0x7FFF) (.immediate 0x8000)) s = .next { s with flags := 0x6E } ∧
    exec (.jle (.immediate 0xFFFF) (.immediate 0)) s = .next { s with ep := s.r3, flags := 0x30 } ∧
    exec (.jgt (.immediate 0xFFFF) (.immediate 1)) s = .next { s with flags := 0x35 } ∧
    exec (.jge (.immediate 0) (.immediate 0)) s = .next { s with ep := s.r3, flags := 0xC0 })

/-- R114, R92: a reserved comparison resolves its operands, writes FLAGS, is reported with its kind, and never jumps.
That its result is false and that it writes FLAGS is the spec's own choice (D7; log entry 16). -/
def Obligations.ReservedComparisonsNeverJump : Prop :=
  ∀ (a b : Operand) (kind : BitVec 4) (s : State),
    let x := resolveSrc a s
    let y := resolveSrc b x.2
    let f := flagsByte x.1 y.1 x.1 y.1
    exec (.jumpUnk5 a b) s = .next (jumpNext (y.2.report (.unknownComparison 5)) f false) ∧
    exec (.jumpUnk6 kind a b) s = .next (jumpNext (y.2.report (.unknownComparison kind)) f false) ∧
    exec (.jumpUnk8 kind a b) s = .next (jumpNext (y.2.report (.unknownComparison kind)) f false)

/-! ### MOVE -/

/-- R115, R116: a MOVE to a register address of a cell sets that cell to the source's value, and does nothing else
beyond the source's resolution.  The order (D11) and FLAGS left unchanged (D25; log entry 18) are the spec's own
choice. -/
def Obligations.MoveToARegister : Prop :=
  ∀ (src dst : Operand) (r : Reg) (s : State), dstIs s.cfg.regMap dst (.cell r) →
    exec (.move src dst) s = .next ((resolveSrc src s).2.setReg r (resolveSrc src s).1)

/-- R115, R116, R117: a MOVE to STACK pushes, a MOVE to OUT hands the value to the output port, and a MOVE to IN or to
an address that names nothing is reported and writes nothing.  What a write of IN does is the spec's own choice (D14;
log entry 12), and so is SP's moving when the push is out of bounds (D15; log entry 5). -/
def Obligations.MoveToTheStackOrAPort : Prop :=
  ∀ (src dst : Operand) (s : State),
    let v := resolveSrc src s
    (dstIs s.cfg.regMap dst .stack → ∃ t : State, exec (.move src dst) s = .next t ∧ t.sp = v.2.sp + 1 ∧
      (Stack.wf s → u16 v.2.sp < s.cfg.stackSize → t.stackAt (u16 v.2.sp) = v.1 ∧ t.reports = v.2.reports) ∧
      (s.cfg.stackSize ≤ u16 v.2.sp → sameStackBlock s t ∧ t.reports = v.2.reports ++ [.stackOobWrite v.2.sp])) ∧
    (dstIs s.cfg.regMap dst .output →
      exec (.move src dst) s = .next { v.2 with outAccepted := s.outAccepted ++ [v.1] }) ∧
    (dstMode dst = .direct → regTarget s.cfg.regMap dst.raw = some .input ∨ regTarget s.cfg.regMap dst.raw = none →
      exec (.move src dst) s = .next { v.2 with reports := v.2.reports ++ [.regInvalidWrite dst.raw] })

/-- R83, R115, R116: a MOVE to memory stores the source's value at the linear address of its destination when a block
that is not read-only covers it, and changes no word otherwise.  The pointer step's full register read (D12) and the
bank in destinations (D13) are the spec's own choice (log entry 18). -/
def Obligations.MoveToMemory : Prop :=
  ∀ (src dst : Operand) (s : State), Memory.wf s →
    let v := resolveSrc src s
    (dstMode dst = .memory → ∃ t : State, exec (.move src dst) s = .next t ∧
      ∀ a : Nat, t.wordAt a =
        if (a : Int) = linAddr s dst.raw ∧ writableAt s.cfg.blocks a = true then v.1 else s.wordAt a) ∧
    (dstMode dst = .pointer → ∃ t : State, exec (.move src dst) s = .next t ∧
      ∀ a : Nat, t.wordAt a =
        if (a : Int) = linAddr s (regRead dst.raw v.2).1 ∧ writableAt s.cfg.blocks a = true then v.1
        else s.wordAt a)

/-- R117: corner cases of MOVE, for every register address map that is a numbering.  MOVE of a register to itself changes
nothing; MOVE STACK, STACK leaves SP and the stack's block as they were when the pop is in bounds; MOVE SP, STACK pushes
the SP before the push; MOVE STACK, SP ends with the popped word in SP; MOVE EP, r0 reads EP as the step has it (three
further after the fetch); an immediate flag on the destination is ignored.  (The spec marks the rule as inferred.) -/
def Obligations.MoveCornerCases : Prop :=
  ∀ (s : State) (r : Reg) (o : Operand), Stack.wf s → s.cfg.regMap.valid →
    let m := s.cfg.regMap
    (srcMode o = .direct → regTarget m o.raw = some (.cell r) → exec (.move o o) s = .next s) ∧
    (u16 (s.sp - 1) < s.cfg.stackSize →
      exec (.move (.direct m.stack) (.direct m.stack)) s = .next s) ∧
    (u16 s.sp < s.cfg.stackSize → ∃ t : State, exec (.move (.direct m.sp) (.direct m.stack)) s = .next t ∧
      t.stackAt (u16 s.sp) = s.sp ∧ t.sp = s.sp + 1) ∧
    (u16 (s.sp - 1) < s.cfg.stackSize → exec (.move (.direct m.stack) (.direct m.sp)) s =
      .next { s with sp := s.stackAt (u16 (s.sp - 1)) }) ∧
    (exec (.move (.direct m.ep) (.direct m.r0)) s = .next { s with r0 := s.ep }) ∧
    (exec (.move (.immediate 5) (.immediate m.r3)) s = .next { s with r3 := 5 })

/-! ### INTERRUPT, the unknown opcode and the interrupt -/

/-- R118: INT stores its resolved operand in INTC and raises the pending interrupt; param1 has no effect.  That param1
is not resolved and FLAGS stays is the spec's own choice (D25; log entry 18). -/
def Obligations.IntRaisesTheInterrupt : Prop :=
  ∀ (src x : Operand) (s : State),
    let v := resolveSrc src s
    exec (.int src x) s = .next { v.2 with intc := v.1, pending := true }

/-- R86: an unknown opcode is reported and nothing else happens: no operand is resolved.  That no operand is resolved
is the spec's own choice (D24; log entry 18). -/
def Obligations.UnknownOpcodeOnlyReports : Prop :=
  ∀ (opc : BitVec 10) (a b : Operand) (s : State),
    exec (.unknown opc a b) s = .next { s with reports := s.reports ++ [.unknownOpcode opc] }

/-- R126: with an interrupt pending, the step clears the flag and goes to the interrupt-entry address, and fetches and
executes nothing else. -/
def Obligations.ServiceTakesThePendingInterrupt : Prop :=
  ∀ s : State, s.pending = true → step s = .next { s with pending := false, ep := s.cfg.intEntry }

/-- R118, R125, R127, R144: when the instruction at EP is INT, the step after it goes to the entry address, whatever
stands behind the INT; INTC keeps the code, and FLAGS, the accumulators, r0 to r3 and MBE are what they were before the
INT.  (The fetch's advance of EP is D10; the service at the next step is the spec's reading, D19.) -/
def Obligations.InterruptIsServicedNextStep : Prop :=
  ∀ (s : State) (src x : Operand), s.pending = false → (fetch s).1.instr s.cfg.opcodes = .int src x →
    ∃ t u : State, step s = .next t ∧ step t = .next u ∧
      t.pending = true ∧ t.ep = s.ep + 3 ∧ u.pending = false ∧ u.ep = s.cfg.intEntry ∧
      u.intc = (resolveSrc src (fetch s).2).1 ∧ u.sp = t.sp ∧ sameMemory s u ∧ sameStackBlock s u ∧
      (∀ r : Reg, r ≠ .intc → r ≠ .ep → r ≠ .sp → u.getReg r = s.getReg r)

/-- R122, R123, R125: `raise_interrupt` from outside has the effect of INT with that code; of two raises before one
service the last code stays and there is one service.  The last is the spec's own choice (D19; log entry 11). -/
def Obligations.ExternalInterruptActsAsInt : Prop :=
  ∀ (s : State) (c d : Word) (x : Operand),
    (∃ t : State, transact (.raiseInterrupt c) s = .next t ∧ exec (.int (.immediate c) x) s = .next t) ∧
    runTransactions [.raiseInterrupt c, .raiseInterrupt d, .step] s =
      .next { s with intc := d, pending := false, ep := s.cfg.intEntry }

/-! ### Frames -/

/-- R94, R46, R53, R84: what a math instruction leaves alone: every register but ACC0, ACC1 and FLAGS (and SP, which moves
down one for each operand that reads STACK), all of memory and of the stack block, the pending interrupt, the output
port; the input queue but for the values its operands poll.  That SP moves out of bounds too and that the stack's block
is its own (D15; log entry 5) and FLAGS[15:8] = 0 (D18; log entry 18) are the spec's own choice; that the answers to
polls are a queue of the state is the model's (log entry 10, after D29). -/
def Obligations.MathFrame : Prop :=
  ∀ (i : Instr) (s t : State), i.cls = .math → exec i s = .next t →
    let m := s.cfg.regMap
    (∀ r : Reg, r ≠ .acc0 → r ≠ .acc1 → r ≠ .flags → r ≠ .sp → t.getReg r = s.getReg r) ∧
    t.sp = s.sp - (if srcReads m i.operand0 .stack then 1 else 0) - (if srcReads m i.operand1 .stack then 1 else 0) ∧
    t.inQueue = s.inQueue.drop
      ((if srcReads m i.operand0 .input then 1 else 0) + (if srcReads m i.operand1 .input then 1 else 0)) ∧
    t.flags.extractLsb' 8 8 = 0 ∧ t.pending = s.pending ∧ t.cfg = s.cfg ∧ t.outAccepted = s.outAccepted ∧
    sameMemory s t ∧ sameStackBlock s t

/-- R107, R24, R46, R53, R84: what a jump leaves alone: every register but FLAGS and EP, the accumulators among them (and SP,
which moves down one for each operand that reads STACK); EP stays or becomes r3; all of memory and of the stack block,
the pending interrupt, the output port; the input queue but for the values its operands poll.  That SP moves out of
bounds too and that the stack's block is its own (D15; log entry 5) and FLAGS[15:8] = 0 (D18; log entry 18) are the
spec's own choice; that the answers to polls are a queue of the state is the model's (log entry 10, after D29). -/
def Obligations.JumpFrame : Prop :=
  ∀ (i : Instr) (s t : State), i.cls = .jump → exec i s = .next t →
    let m := s.cfg.regMap
    (∀ r : Reg, r ≠ .flags → r ≠ .ep → r ≠ .sp → t.getReg r = s.getReg r) ∧
    (t.ep = s.ep ∨ t.ep = s.r3) ∧
    t.sp = s.sp - (if srcReads m i.operand0 .stack then 1 else 0) - (if srcReads m i.operand1 .stack then 1 else 0) ∧
    t.inQueue = s.inQueue.drop
      ((if srcReads m i.operand0 .input then 1 else 0) + (if srcReads m i.operand1 .input then 1 else 0)) ∧
    t.flags.extractLsb' 8 8 = 0 ∧ t.pending = s.pending ∧ t.cfg = s.cfg ∧ t.outAccepted = s.outAccepted ∧
    sameMemory s t ∧ sameStackBlock s t

/-- R115, R45, R46, R53: what MOVE leaves alone: every register but its destination and SP; SP but for a pop of the source, a pop
of the destination's pointer step, a push, and a MOVE to SP; every word of memory but the one at the destination's
linear address; every word of the stack block but the one pushed; the pending interrupt; the output port unless it is
the destination; the input queue but for the values its operands poll.  That a push leaves the mapper's memory alone
and that SP moves on every pop and push, out of bounds too (D15; log entry 5), that the source is resolved first (D11),
the pointer step's full register read (D12), the bank in destinations (D13) and FLAGS left unchanged (D25; all log entry
18) are the spec's own choice; that the answers to polls are a queue of the state is the model's (log entry 10, after
D29). -/
def Obligations.MoveFrame : Prop :=
  ∀ (src dst : Operand) (s t : State), exec (.move src dst) s = .next t →
    let m := s.cfg.regMap
    let v := resolveSrc src s
    let d := resolveDst dst v.2
    (∀ r : Reg, ¬ dstIs m dst (.cell r) → r ≠ .sp → t.getReg r = s.getReg r) ∧
    (¬ dstIs m dst (.cell .sp) →
      t.sp = s.sp - (if srcReads m src .stack then 1 else 0) - (if dstReads m dst .stack then 1 else 0) +
        (if dstIs m dst .stack then 1 else 0)) ∧
    (dstMode dst = .direct → sameMemory s t) ∧
    (∀ addr : Int, d.1 = .memory addr → ∀ a : Nat, (a : Int) ≠ addr → t.wordAt a = s.wordAt a) ∧
    (¬ dstIs m dst .stack → sameStackBlock s t) ∧
    (dstIs m dst .stack → ∀ i : Nat, i ≠ u16 v.2.sp → t.stackAt i = s.stackAt i) ∧
    t.inQueue = s.inQueue.drop
      ((if srcReads m src .input then 1 else 0) + (if dstReads m dst .input then 1 else 0)) ∧
    (¬ dstIs m dst .output → t.outAccepted = s.outAccepted) ∧
    t.pending = s.pending ∧ t.cfg = s.cfg

/-- R118, R86, R46: what INT and an unknown opcode leave alone: every register but INTC for INT, and SP, which moves down one
when INT's param0 reads STACK; all of memory and of the stack block, the output port, and for an unknown opcode the
pending interrupt, SP and the input queue too.  That SP moves out of bounds too and that the stack's block is its own
(D15; log entry 5), FLAGS left unchanged by INT (D25) and no operand resolved by an unknown opcode (D24; both log entry
18) are the spec's own choice; that the answers to polls are a queue of the state is the model's (log entry 10, after
D29). -/
def Obligations.IntAndUnknownFrame : Prop :=
  (∀ (src x : Operand) (s t : State), exec (.int src x) s = .next t →
    (∀ r : Reg, r ≠ .intc → r ≠ .sp → t.getReg r = s.getReg r) ∧
    t.sp = s.sp - (if srcReads s.cfg.regMap src .stack then 1 else 0) ∧
    t.inQueue = s.inQueue.drop (if srcReads s.cfg.regMap src .input then 1 else 0) ∧
    t.cfg = s.cfg ∧ t.outAccepted = s.outAccepted ∧ sameMemory s t ∧ sameStackBlock s t) ∧
  (∀ (opc : BitVec 10) (a b : Operand) (s t : State), exec (.unknown opc a b) s = .next t →
    (∀ r : Reg, t.getReg r = s.getReg r) ∧ t.pending = s.pending ∧ t.inQueue = s.inQueue ∧ t.cfg = s.cfg ∧
    t.outAccepted = s.outAccepted ∧ sameMemory s t ∧ sameStackBlock s t)

/-! ### Rules of the whole machine -/

/-- R22 to R30: a register changes only as the destination of a MOVE, or by the classes that write it by themselves:
ACC0, ACC1 and FLAGS by math, FLAGS and EP by jumps, INTC by INT, and SP by a pop or a push.  r0 to r3 and MBE have no
such writer.  FLAGS left unchanged by MOVE and INT is the spec's own choice (D25; log entry 18). -/
def Obligations.RegistersChangeOnlyByTheirWriters : Prop :=
  ∀ (i : Instr) (s t : State) (r : Reg), exec i s = .next t →
    ¬ movesTo s.cfg.regMap i (.cell r) → implicitWrite i r = false →
    (r = .sp → ¬ readsAddress s.cfg.regMap i .stack ∧ ¬ movesTo s.cfg.regMap i .stack) → t.getReg r = s.getReg r

/-- R22, R27, R30, R23: a register that no operand of an instruction names, other than r3 (the target of jumps), SP, EP
and MBE, has no influence on the instruction: with another value there, the outcome is the same but for that register,
and the same in it too where the instruction writes it.  So a jump never reads FLAGS, and INTC steers nothing. -/
def Obligations.UnnamedRegistersHaveNoInfluence : Prop :=
  ∀ (i : Instr) (s t : State) (r : Reg) (v : Word), r ≠ .r3 → r ≠ .sp → r ≠ .ep → r ≠ .mbe →
    ¬ readsAddress s.cfg.regMap i (.cell r) → exec i s = .next t →
    ((movesTo s.cfg.regMap i (.cell r) ∨ implicitWrite i r = true) → exec i (s.setReg r v) = .next t) ∧
    (¬ movesTo s.cfg.regMap i (.cell r) → implicitWrite i r = false → exec i (s.setReg r v) = .next (t.setReg r v))

/-- R31, R123, R126: the pending flag is set by INT and by `raise_interrupt`, cleared by the service, kept by every other
instruction, and read by none. -/
def Obligations.PendingFlagWriters : Prop :=
  (∀ (i : Instr) (s t : State) (p : Bool), exec i s = .next t →
    (t.pending = true ↔ s.pending = true ∨ i.cls = .interrupt) ∧
    exec i { s with pending := p } = .next { t with pending := p || decide (i.cls = .interrupt) }) ∧
  (∀ s t : State, step s = .next t → (t.pending = true ↔
    s.pending = false ∧ ((fetch s).1.instr s.cfg.opcodes).cls = .interrupt)) ∧
  (∀ (s t : State) (c : Word), transact (.raiseInterrupt c) s = .next t → t.pending = true ∧ t.intc = c)

/-- R18: reports have no effect on architectural state: whatever was reported before, an instruction does the same and
emits the same reports.  Recording them is the model's choice (log entry 8, after D23). -/
def Obligations.ReportsHaveNoEffect : Prop :=
  ∀ (i : Instr) (s t : State), exec i s = .next t →
    ∃ emitted : List Report, t.reports = s.reports ++ emitted ∧
      ∀ before : List Report, exec i { s with reports := before } = .next { t with reports := before ++ emitted }

/-- R85, R25, R107: a step that executes an instruction leaves EP three further, but for a MOVE to EP, and a jump, which
may leave it at r3.  The advance by three before the instruction runs is the spec's own choice (D10, conflict C1; log
entry 18). -/
def Obligations.NextInstructionAddress : Prop :=
  ∀ s t : State, s.pending = false → step s = .next t →
    let i := (fetch s).1.instr s.cfg.opcodes
    (¬ movesTo s.cfg.regMap i (.cell .ep) → i.cls ≠ .jump → t.ep = s.ep + 3) ∧
    (i.cls = .jump → t.ep = s.ep + 3 ∨ t.ep = s.r3)

/-- R76, R77, R42: with no interrupt pending, a step is `exec` of the instruction that the three words at EP, EP + 1 and
EP + 2 decode to, at the state with EP three further and a report for each of the three addresses that no block covers;
the bank register takes no part.  The unbanked fetch (D9) and the advance of EP before the instruction runs (D10) are
the spec's own choice (log entries 17, 18). -/
def Obligations.StepRunsTheDecodedInstruction : Prop :=
  ∀ (s : State) (i : Instr), s.pending = false →
    decode s.cfg.opcodes (s.wordAt (u16 s.ep)) (s.wordAt (u16 (s.ep + 1))) (s.wordAt (u16 (s.ep + 2))) = i →
    step s = exec i { s with
      ep := s.ep + 3
      reports := s.reports ++
        (([s.ep, s.ep + 1, s.ep + 2].filter fun e => decide (totalSize s.cfg.blocks ≤ u16 e)).map
          fun e => Report.memOobRead (u16 e : Int)) }

/-- R17, R60: an instruction placed at EP by the loader is what the next step runs: `withFetchWord` (log entry 7).  With
the default opcode values it is the instruction that `decodeTableWord` gives. -/
def Obligations.PlacedInstructionRuns : Prop :=
  ∀ (s : State) (nbits w : Nat), s.Inv →
    ∃ (i : Instr) (s1 : State), decodeWords s.cfg.opcodes (tableWords nbits w) = .ok (i, []) ∧
      (s.cfg.opcodes = .standard → decodeTableWord nbits w = some i) ∧
      step (s.withFetchWord nbits w) = exec i { s1 with ep := s.ep + 3 } ∧ s1 = s.withFetchWord nbits w ∧
      (∀ r : Reg, s1.getReg r = s.getReg r) ∧ s1.stack = s.stack ∧ s1.inQueue = s.inQueue ∧
      s1.outAccepted = s.outAccepted ∧ s1.reports = s.reports ∧
      (∀ a : Nat, a ≠ u16 s.ep → a ≠ u16 (s.ep + 1) → a ≠ u16 (s.ep + 2) → s1.wordAt a = s.wordAt a)

/-- R34, R139, R140: the state after reset.  The values are the spec's own choice (D15, D16, D17) and the block list is
the model's (log entries 2, 3, 4, 5); with `REG_RESET = arbitrary` only EP, the memory and the pending flag are fixed. -/
def Obligations.ResetState : Prop :=
  (∀ r : Reg, State.reset.getReg r = if r = .ep then 0x0010 else 0) ∧
  (∀ cfg : Config,
    (State.resetWith cfg).ep = cfg.resetEp ∧ (State.resetWith cfg).pending = false ∧
    (State.resetWith cfg).cfg = cfg ∧
    (cfg.regReset = .zero → ∀ r : Reg, r ≠ .ep → (State.resetWith cfg).getReg r = 0) ∧
    (∀ addr : Nat, (State.resetWith cfg).wordAt addr = initialWord cfg.blocks addr) ∧
    (∀ i : Nat, (State.resetWith cfg).stackAt i = 0))

/-- R39, R44: the invariant holds after reset, with every value of the parameters. -/
def Obligations.ResetIsSound : Prop :=
  ∀ cfg : Config, (State.resetWith cfg).Inv

/-- R32, R39, R44: every step keeps the invariant: memory and stack block in canonical form (log entry 6), no word of a
read-only block changed, nothing stored outside the blocks or outside the stack's block; and it keeps the
parameters (log entry 1). -/
def Obligations.StepKeepsTheInvariant : Prop :=
  ∀ s t : State, s.Inv → step s = .next t → t.Inv ∧ t.cfg = s.cfg

/-- R119, R142: nothing stops the machine: every list of transactions runs to its end from every state. -/
def Obligations.EveryRunCompletes : Prop :=
  ∀ (ts : List Transaction) (s : State), ∃ t : State, runTransactions ts s = .next t

/-- R142, R74: at a SPIN with no interrupt pending, a step leaves the whole state as it is, but for the fetch's reports
where the blocks do not cover its words; with the default register addresses and opcode values there are none.  That a
run ends there is the spec's own choice (D20). -/
def Obligations.SpinStaysPut : Prop :=
  ∀ s : State, s.cfg.regMap.valid → s.cfg.opcodes.valid → atSpin s = true →
    (∃ emitted : List Report, step s = .next { s with reports := s.reports ++ emitted }) ∧
    (fetchCovered s = true → step s = .next s) ∧
    (s.cfg.regMap = .standard → step s = .next s)

/-! ### The ALU as the opcode's bits choose it -/

/-- R71, R88, R94, R107: a decoded math or jump instruction runs the ALU on the low four bits of its opcode as the kind,
with the comparison request of its class, and its handler stores what the ALU answers.  With the default values these
five bits are `OPC[4:0]`.  The place of the request bit and the kinds' numbering are the spec's own choice (D2, D3; log
entry 13), and so are FLAGS[15:8] = 0 (D18) and the order of resolution (D11; log entry 18). -/
def Obligations.HandlersRunTheAluOnTheOpcodeBits : Prop :=
  ∀ (s : State) (op raw0 raw1 : Word),
    let i := decode s.cfg.opcodes op raw0 raw1
    let x := resolveSrc i.operand0 s
    let y := resolveSrc i.operand1 x.2
    let kind := op.extractLsb' 0 4
    (i.cls = .math →
      let r := alu s.cfg (0#1 ++ kind) x.1 y.1
      exec i s = .next (mathNext (y.2.reportOpt r.report) r.primary r.secondary r.flags)) ∧
    (i.cls = .jump →
      let r := alu s.cfg (1#1 ++ kind) x.1 y.1
      exec i s = .next (jumpNext (y.2.reportOpt r.report) r.flags r.comparison)) ∧
    (s.cfg.opcodes = .standard → i.cls = .math → 0#1 ++ kind = op.extractLsb' 0 5) ∧
    (s.cfg.opcodes = .standard → i.cls = .jump → 1#1 ++ kind = op.extractLsb' 0 5)
end

