-- ==== Sys2Proof/Laws/Cells.lean ====
section
/-! SUPPORT. The laws of sparse cells: a read after a write, and the canonical form. -/

namespace Sys2Proof.Machine

/-- The indexes of the cells after a write: the old ones, and perhaps the index written. -/
theorem mem_cellSet_index {d : Word} {a : Nat} {v : Word} {m : Cells} {c : Nat × Word} (h : c ∈ cellSet d a v m) :
    c ∈ m ∨ c = (a, v) ∧ v ≠ d := by
  induction m with
  | nil =>
    simp only [cellSet] at h
    split at h <;> simp_all
  | cons p m ih =>
    obtain ⟨k, w⟩ := p
    simp only [cellSet] at h
    split_ifs at h <;> simp only [List.mem_cons] at h ⊢ <;> grind

/-- In cells in rising order, an index below the first is not listed. -/
theorem cellGet_of_lt {d : Word} {a : Nat} {m : Cells} (h : ∀ c ∈ m, a < c.1) : cellGet d m a = d := by
  induction m with
  | nil => rfl
  | cons p m ih =>
    obtain ⟨k, w⟩ := p
    have hk : a < k := h (k, w) (by simp)
    rw [cellGet, if_neg (by omega)]
    exact ih fun c hc => h c (by simp [hc])

/-- Rising order of a list of cells, its head apart. -/
theorem rising_cons {k : Nat} {w : Word} {m : Cells} :
    (((k, w) :: m).map Prod.fst).Pairwise (· < ·) ↔ (∀ c ∈ m, k < c.1) ∧ (m.map Prod.fst).Pairwise (· < ·) := by
  simp [List.pairwise_cons]

/-- A read after a write to the same index gives the value written. -/
theorem cellGet_cellSet_same {d : Word} {a : Nat} {v : Word} {m : Cells}
    (h : (m.map Prod.fst).Pairwise (· < ·)) : cellGet d (cellSet d a v m) a = v := by
  induction m with
  | nil => simp only [cellSet]; split <;> simp_all [cellGet]
  | cons p m ih =>
    obtain ⟨k, w⟩ := p
    obtain ⟨hk, hm⟩ := rising_cons.1 h
    simp only [cellSet]
    split_ifs with h1 h2 h3 h4
    · rw [h2]; exact cellGet_of_lt fun c hc => by
        rcases List.mem_cons.1 hc with rfl | hc
        · exact h1
        · exact h1.trans (hk c hc)
    · simp [cellGet]
    · rw [h4]; exact cellGet_of_lt fun c hc => h3 ▸ hk c hc
    · simp [cellGet]
    · rw [cellGet, if_neg h3]; exact ih hm

/-- A write leaves every other index alone. -/
theorem cellGet_cellSet_ne {d e : Word} {a b : Nat} {v : Word} {m : Cells} (hab : b ≠ a) :
    cellGet e (cellSet d a v m) b = cellGet e m b := by
  induction m with
  | nil => simp only [cellSet]; split <;> simp [cellGet, hab]
  | cons p m ih =>
    obtain ⟨k, w⟩ := p
    simp only [cellSet]
    split_ifs with h1 h2 h3 h4 <;> simp_all [cellGet]

/-- A write keeps the canonical form. -/
theorem cellSet_wf {unlisted : Nat → Word} {a : Nat} {v : Word} {m : Cells} (h : Cells.wf unlisted m) :
    Cells.wf unlisted (cellSet (unlisted a) a v m) := by
  refine ⟨?_, ?_⟩
  · have hr := h.1
    clear h
    induction m with
    | nil => simp only [cellSet]; split <;> simp
    | cons p m ih =>
      obtain ⟨k, w⟩ := p
      obtain ⟨hk, hm⟩ := rising_cons.1 hr
      simp only [cellSet]
      split_ifs with h1 h2 h3 h4
      · exact hr
      · exact rising_cons.2 ⟨fun c hc => by
          rcases List.mem_cons.1 hc with rfl | hc
          · exact h1
          · exact h1.trans (hk c hc), hr⟩
      · exact hm
      · exact rising_cons.2 ⟨fun c hc => h3 ▸ hk c hc, hm⟩
      · refine rising_cons.2 ⟨fun c hc => ?_, ih hm⟩
        rcases mem_cellSet_index hc with hc | ⟨rfl, -⟩
        · exact hk c hc
        · simp only; omega
  · intro c hc
    rcases mem_cellSet_index hc with hc | ⟨rfl, hv⟩
    · exact h.2 c hc
    · exact hv

/-- Canonical cells with equal reads are equal. -/
theorem cells_ext {unlisted : Nat → Word} {m n : Cells} (hm : Cells.wf unlisted m) (hn : Cells.wf unlisted n)
    (h : ∀ a, cellGet (unlisted a) m a = cellGet (unlisted a) n a) : m = n := by
  induction m generalizing n with
  | nil =>
    cases n with
    | nil => rfl
    | cons p n =>
      have := h p.1
      simp [cellGet] at this
      exact absurd this.symm (hn.2 p (by simp))
  | cons p m ih =>
    obtain ⟨k, w⟩ := p
    obtain ⟨hk, hm'⟩ := rising_cons.1 hm.1
    cases n with
    | nil =>
      have := h k
      simp [cellGet] at this
      exact absurd this (hm.2 (k, w) (by simp))
    | cons q n =>
      obtain ⟨l, x⟩ := q
      obtain ⟨hl, hn'⟩ := rising_cons.1 hn.1
      have hkl : k = l := by
        rcases Nat.lt_trichotomy k l with hlt | heq | hlt
        · have := h k
          rw [cellGet, if_pos rfl, cellGet_of_lt (m := (l, x) :: n)] at this
          · exact absurd this (hm.2 (k, w) (by simp))
          · intro c hc
            rcases List.mem_cons.1 hc with rfl | hc
            · exact hlt
            · exact hlt.trans (hl c hc)
        · exact heq
        · have := h l
          rw [cellGet_of_lt (m := (k, w) :: m), cellGet, if_pos rfl] at this
          · exact absurd this.symm (hn.2 (l, x) (by simp))
          · intro c hc
            rcases List.mem_cons.1 hc with rfl | hc
            · exact hlt
            · exact hlt.trans (hk c hc)
      subst hkl
      have hwx : w = x := by simpa [cellGet] using h k
      subst hwx
      congr 1
      refine ih ⟨hm', fun c hc => hm.2 c (by simp [hc])⟩ ⟨hn', fun c hc => hn.2 c (by simp [hc])⟩ fun a => ?_
      by_cases ha : a = k
      · subst ha; rw [cellGet_of_lt hk, cellGet_of_lt hl]
      · simpa [cellGet, ha] using h a

end Sys2Proof.Machine
end

