-- ==== Sys2Proof/Laws/State.lean ====
section
/-! SUPPORT. One lemma per field per update of the state, each true by rfl (or by cases on the register). -/

namespace Sys2Proof.Machine

/-! ### setReg, getReg -/

@[simp] theorem setReg_pending (s : State) (r : Reg) (v : Word) : (s.setReg r v).pending = s.pending := by
  cases r <;> rfl

@[simp] theorem setReg_mem (s : State) (r : Reg) (v : Word) : (s.setReg r v).mem = s.mem := by
  cases r <;> rfl

@[simp] theorem setReg_stack (s : State) (r : Reg) (v : Word) : (s.setReg r v).stack = s.stack := by
  cases r <;> rfl

@[simp] theorem setReg_cfg (s : State) (r : Reg) (v : Word) : (s.setReg r v).cfg = s.cfg := by
  cases r <;> rfl

@[simp] theorem setReg_inQueue (s : State) (r : Reg) (v : Word) : (s.setReg r v).inQueue = s.inQueue := by
  cases r <;> rfl

@[simp] theorem setReg_outAccepted (s : State) (r : Reg) (v : Word) : (s.setReg r v).outAccepted = s.outAccepted := by
  cases r <;> rfl

@[simp] theorem setReg_reports (s : State) (r : Reg) (v : Word) : (s.setReg r v).reports = s.reports := by
  cases r <;> rfl

@[simp] theorem getReg_setReg_same (s : State) (r : Reg) (v : Word) : (s.setReg r v).getReg r = v := by
  cases r <;> rfl

theorem getReg_setReg_ne (s : State) {r q : Reg} (v : Word) (h : q ≠ r) : (s.setReg r v).getReg q = s.getReg q := by
  cases r <;> cases q <;> first | rfl | exact absurd rfl h

@[simp] theorem setReg_setReg_same (s : State) (r : Reg) (v w : Word) : (s.setReg r v).setReg r w = s.setReg r w := by
  cases r <;> rfl

@[simp] theorem setReg_getReg (s : State) (r : Reg) : s.setReg r (s.getReg r) = s := by
  cases r <;> rfl

@[simp] theorem getReg_r0 (s : State) : s.getReg .r0 = s.r0 := rfl

@[simp] theorem setReg_at_r0 (s : State) (v : Word) : s.setReg .r0 v = { s with r0 := v } := rfl

@[simp] theorem getReg_r1 (s : State) : s.getReg .r1 = s.r1 := rfl

@[simp] theorem setReg_at_r1 (s : State) (v : Word) : s.setReg .r1 v = { s with r1 := v } := rfl

@[simp] theorem getReg_r2 (s : State) : s.getReg .r2 = s.r2 := rfl

@[simp] theorem setReg_at_r2 (s : State) (v : Word) : s.setReg .r2 v = { s with r2 := v } := rfl

@[simp] theorem getReg_r3 (s : State) : s.getReg .r3 = s.r3 := rfl

@[simp] theorem setReg_at_r3 (s : State) (v : Word) : s.setReg .r3 v = { s with r3 := v } := rfl

@[simp] theorem getReg_acc0 (s : State) : s.getReg .acc0 = s.acc0 := rfl

@[simp] theorem setReg_at_acc0 (s : State) (v : Word) : s.setReg .acc0 v = { s with acc0 := v } := rfl

@[simp] theorem getReg_acc1 (s : State) : s.getReg .acc1 = s.acc1 := rfl

@[simp] theorem setReg_at_acc1 (s : State) (v : Word) : s.setReg .acc1 v = { s with acc1 := v } := rfl

@[simp] theorem getReg_flags (s : State) : s.getReg .flags = s.flags := rfl

@[simp] theorem setReg_at_flags (s : State) (v : Word) : s.setReg .flags v = { s with flags := v } := rfl

@[simp] theorem getReg_sp (s : State) : s.getReg .sp = s.sp := rfl

@[simp] theorem setReg_at_sp (s : State) (v : Word) : s.setReg .sp v = { s with sp := v } := rfl

@[simp] theorem getReg_ep (s : State) : s.getReg .ep = s.ep := rfl

@[simp] theorem setReg_at_ep (s : State) (v : Word) : s.setReg .ep v = { s with ep := v } := rfl

@[simp] theorem getReg_mbe (s : State) : s.getReg .mbe = s.mbe := rfl

@[simp] theorem setReg_at_mbe (s : State) (v : Word) : s.setReg .mbe v = { s with mbe := v } := rfl

@[simp] theorem getReg_intc (s : State) : s.getReg .intc = s.intc := rfl

@[simp] theorem setReg_at_intc (s : State) (v : Word) : s.setReg .intc v = { s with intc := v } := rfl

/-! ### report -/

@[simp] theorem report_r0 (s : State) (r : Report) : (s.report r).r0 = s.r0 := rfl

@[simp] theorem report_r1 (s : State) (r : Report) : (s.report r).r1 = s.r1 := rfl

@[simp] theorem report_r2 (s : State) (r : Report) : (s.report r).r2 = s.r2 := rfl

@[simp] theorem report_r3 (s : State) (r : Report) : (s.report r).r3 = s.r3 := rfl

@[simp] theorem report_acc0 (s : State) (r : Report) : (s.report r).acc0 = s.acc0 := rfl

@[simp] theorem report_acc1 (s : State) (r : Report) : (s.report r).acc1 = s.acc1 := rfl

@[simp] theorem report_flags (s : State) (r : Report) : (s.report r).flags = s.flags := rfl

@[simp] theorem report_sp (s : State) (r : Report) : (s.report r).sp = s.sp := rfl

@[simp] theorem report_ep (s : State) (r : Report) : (s.report r).ep = s.ep := rfl

@[simp] theorem report_mbe (s : State) (r : Report) : (s.report r).mbe = s.mbe := rfl

@[simp] theorem report_intc (s : State) (r : Report) : (s.report r).intc = s.intc := rfl

@[simp] theorem report_pending (s : State) (r : Report) : (s.report r).pending = s.pending := rfl

@[simp] theorem report_mem (s : State) (r : Report) : (s.report r).mem = s.mem := rfl

@[simp] theorem report_stack (s : State) (r : Report) : (s.report r).stack = s.stack := rfl

@[simp] theorem report_cfg (s : State) (r : Report) : (s.report r).cfg = s.cfg := rfl

@[simp] theorem report_inQueue (s : State) (r : Report) : (s.report r).inQueue = s.inQueue := rfl

@[simp] theorem report_outAccepted (s : State) (r : Report) : (s.report r).outAccepted = s.outAccepted := rfl

@[simp] theorem report_reports (s : State) (r : Report) : (s.report r).reports = s.reports ++ [r] := rfl

/-! ### storeWord -/

@[simp] theorem storeWord_r0 (s : State) (a : Nat) (v : Word) : (s.storeWord a v).r0 = s.r0 := rfl

@[simp] theorem storeWord_r1 (s : State) (a : Nat) (v : Word) : (s.storeWord a v).r1 = s.r1 := rfl

@[simp] theorem storeWord_r2 (s : State) (a : Nat) (v : Word) : (s.storeWord a v).r2 = s.r2 := rfl

@[simp] theorem storeWord_r3 (s : State) (a : Nat) (v : Word) : (s.storeWord a v).r3 = s.r3 := rfl

@[simp] theorem storeWord_acc0 (s : State) (a : Nat) (v : Word) : (s.storeWord a v).acc0 = s.acc0 := rfl

@[simp] theorem storeWord_acc1 (s : State) (a : Nat) (v : Word) : (s.storeWord a v).acc1 = s.acc1 := rfl

@[simp] theorem storeWord_flags (s : State) (a : Nat) (v : Word) : (s.storeWord a v).flags = s.flags := rfl

@[simp] theorem storeWord_sp (s : State) (a : Nat) (v : Word) : (s.storeWord a v).sp = s.sp := rfl

@[simp] theorem storeWord_ep (s : State) (a : Nat) (v : Word) : (s.storeWord a v).ep = s.ep := rfl

@[simp] theorem storeWord_mbe (s : State) (a : Nat) (v : Word) : (s.storeWord a v).mbe = s.mbe := rfl

@[simp] theorem storeWord_intc (s : State) (a : Nat) (v : Word) : (s.storeWord a v).intc = s.intc := rfl

@[simp] theorem storeWord_pending (s : State) (a : Nat) (v : Word) : (s.storeWord a v).pending = s.pending := rfl

@[simp] theorem storeWord_mem (s : State) (a : Nat) (v : Word) : (s.storeWord a v).mem = cellSet (initialWord s.cfg.blocks a) a v s.mem := rfl

@[simp] theorem storeWord_stack (s : State) (a : Nat) (v : Word) : (s.storeWord a v).stack = s.stack := rfl

@[simp] theorem storeWord_cfg (s : State) (a : Nat) (v : Word) : (s.storeWord a v).cfg = s.cfg := rfl

@[simp] theorem storeWord_inQueue (s : State) (a : Nat) (v : Word) : (s.storeWord a v).inQueue = s.inQueue := rfl

@[simp] theorem storeWord_outAccepted (s : State) (a : Nat) (v : Word) : (s.storeWord a v).outAccepted = s.outAccepted := rfl

@[simp] theorem storeWord_reports (s : State) (a : Nat) (v : Word) : (s.storeWord a v).reports = s.reports := rfl

/-! ### outAccept -/

@[simp] theorem outAccept_r0 (s : State) (v : Word) : (outAccept v s).r0 = s.r0 := rfl

@[simp] theorem outAccept_r1 (s : State) (v : Word) : (outAccept v s).r1 = s.r1 := rfl

@[simp] theorem outAccept_r2 (s : State) (v : Word) : (outAccept v s).r2 = s.r2 := rfl

@[simp] theorem outAccept_r3 (s : State) (v : Word) : (outAccept v s).r3 = s.r3 := rfl

@[simp] theorem outAccept_acc0 (s : State) (v : Word) : (outAccept v s).acc0 = s.acc0 := rfl

@[simp] theorem outAccept_acc1 (s : State) (v : Word) : (outAccept v s).acc1 = s.acc1 := rfl

@[simp] theorem outAccept_flags (s : State) (v : Word) : (outAccept v s).flags = s.flags := rfl

@[simp] theorem outAccept_sp (s : State) (v : Word) : (outAccept v s).sp = s.sp := rfl

@[simp] theorem outAccept_ep (s : State) (v : Word) : (outAccept v s).ep = s.ep := rfl

@[simp] theorem outAccept_mbe (s : State) (v : Word) : (outAccept v s).mbe = s.mbe := rfl

@[simp] theorem outAccept_intc (s : State) (v : Word) : (outAccept v s).intc = s.intc := rfl

@[simp] theorem outAccept_pending (s : State) (v : Word) : (outAccept v s).pending = s.pending := rfl

@[simp] theorem outAccept_mem (s : State) (v : Word) : (outAccept v s).mem = s.mem := rfl

@[simp] theorem outAccept_stack (s : State) (v : Word) : (outAccept v s).stack = s.stack := rfl

@[simp] theorem outAccept_cfg (s : State) (v : Word) : (outAccept v s).cfg = s.cfg := rfl

@[simp] theorem outAccept_inQueue (s : State) (v : Word) : (outAccept v s).inQueue = s.inQueue := rfl

@[simp] theorem outAccept_outAccepted (s : State) (v : Word) : (outAccept v s).outAccepted = s.outAccepted ++ [v] := rfl

@[simp] theorem outAccept_reports (s : State) (v : Word) : (outAccept v s).reports = s.reports := rfl

/-! ### pendInterrupt -/

@[simp] theorem pendInterrupt_r0 (s : State) (c : Word) : (pendInterrupt c s).r0 = s.r0 := rfl

@[simp] theorem pendInterrupt_r1 (s : State) (c : Word) : (pendInterrupt c s).r1 = s.r1 := rfl

@[simp] theorem pendInterrupt_r2 (s : State) (c : Word) : (pendInterrupt c s).r2 = s.r2 := rfl

@[simp] theorem pendInterrupt_r3 (s : State) (c : Word) : (pendInterrupt c s).r3 = s.r3 := rfl

@[simp] theorem pendInterrupt_acc0 (s : State) (c : Word) : (pendInterrupt c s).acc0 = s.acc0 := rfl

@[simp] theorem pendInterrupt_acc1 (s : State) (c : Word) : (pendInterrupt c s).acc1 = s.acc1 := rfl

@[simp] theorem pendInterrupt_flags (s : State) (c : Word) : (pendInterrupt c s).flags = s.flags := rfl

@[simp] theorem pendInterrupt_sp (s : State) (c : Word) : (pendInterrupt c s).sp = s.sp := rfl

@[simp] theorem pendInterrupt_ep (s : State) (c : Word) : (pendInterrupt c s).ep = s.ep := rfl

@[simp] theorem pendInterrupt_mbe (s : State) (c : Word) : (pendInterrupt c s).mbe = s.mbe := rfl

@[simp] theorem pendInterrupt_intc (s : State) (c : Word) : (pendInterrupt c s).intc = c := rfl

@[simp] theorem pendInterrupt_pending (s : State) (c : Word) : (pendInterrupt c s).pending = true := rfl

@[simp] theorem pendInterrupt_mem (s : State) (c : Word) : (pendInterrupt c s).mem = s.mem := rfl

@[simp] theorem pendInterrupt_stack (s : State) (c : Word) : (pendInterrupt c s).stack = s.stack := rfl

@[simp] theorem pendInterrupt_cfg (s : State) (c : Word) : (pendInterrupt c s).cfg = s.cfg := rfl

@[simp] theorem pendInterrupt_inQueue (s : State) (c : Word) : (pendInterrupt c s).inQueue = s.inQueue := rfl

@[simp] theorem pendInterrupt_outAccepted (s : State) (c : Word) : (pendInterrupt c s).outAccepted = s.outAccepted := rfl

@[simp] theorem pendInterrupt_reports (s : State) (c : Word) : (pendInterrupt c s).reports = s.reports := rfl

/-! ### service -/

@[simp] theorem service_r0 (s : State) : (service s).r0 = s.r0 := rfl

@[simp] theorem service_r1 (s : State) : (service s).r1 = s.r1 := rfl

@[simp] theorem service_r2 (s : State) : (service s).r2 = s.r2 := rfl

@[simp] theorem service_r3 (s : State) : (service s).r3 = s.r3 := rfl

@[simp] theorem service_acc0 (s : State) : (service s).acc0 = s.acc0 := rfl

@[simp] theorem service_acc1 (s : State) : (service s).acc1 = s.acc1 := rfl

@[simp] theorem service_flags (s : State) : (service s).flags = s.flags := rfl

@[simp] theorem service_sp (s : State) : (service s).sp = s.sp := rfl

@[simp] theorem service_ep (s : State) : (service s).ep = s.cfg.intEntry := rfl

@[simp] theorem service_mbe (s : State) : (service s).mbe = s.mbe := rfl

@[simp] theorem service_intc (s : State) : (service s).intc = s.intc := rfl

@[simp] theorem service_pending (s : State) : (service s).pending = false := rfl

@[simp] theorem service_mem (s : State) : (service s).mem = s.mem := rfl

@[simp] theorem service_stack (s : State) : (service s).stack = s.stack := rfl

@[simp] theorem service_cfg (s : State) : (service s).cfg = s.cfg := rfl

@[simp] theorem service_inQueue (s : State) : (service s).inQueue = s.inQueue := rfl

@[simp] theorem service_outAccepted (s : State) : (service s).outAccepted = s.outAccepted := rfl

@[simp] theorem service_reports (s : State) : (service s).reports = s.reports := rfl

/-! ### inputArrives -/

@[simp] theorem inputArrives_r0 (s : State) (v : Word) : (inputArrives v s).r0 = s.r0 := rfl

@[simp] theorem inputArrives_r1 (s : State) (v : Word) : (inputArrives v s).r1 = s.r1 := rfl

@[simp] theorem inputArrives_r2 (s : State) (v : Word) : (inputArrives v s).r2 = s.r2 := rfl

@[simp] theorem inputArrives_r3 (s : State) (v : Word) : (inputArrives v s).r3 = s.r3 := rfl

@[simp] theorem inputArrives_acc0 (s : State) (v : Word) : (inputArrives v s).acc0 = s.acc0 := rfl

@[simp] theorem inputArrives_acc1 (s : State) (v : Word) : (inputArrives v s).acc1 = s.acc1 := rfl

@[simp] theorem inputArrives_flags (s : State) (v : Word) : (inputArrives v s).flags = s.flags := rfl

@[simp] theorem inputArrives_sp (s : State) (v : Word) : (inputArrives v s).sp = s.sp := rfl

@[simp] theorem inputArrives_ep (s : State) (v : Word) : (inputArrives v s).ep = s.ep := rfl

@[simp] theorem inputArrives_mbe (s : State) (v : Word) : (inputArrives v s).mbe = s.mbe := rfl

@[simp] theorem inputArrives_intc (s : State) (v : Word) : (inputArrives v s).intc = s.intc := rfl

@[simp] theorem inputArrives_pending (s : State) (v : Word) : (inputArrives v s).pending = s.pending := rfl

@[simp] theorem inputArrives_mem (s : State) (v : Word) : (inputArrives v s).mem = s.mem := rfl

@[simp] theorem inputArrives_stack (s : State) (v : Word) : (inputArrives v s).stack = s.stack := rfl

@[simp] theorem inputArrives_cfg (s : State) (v : Word) : (inputArrives v s).cfg = s.cfg := rfl

@[simp] theorem inputArrives_inQueue (s : State) (v : Word) : (inputArrives v s).inQueue = s.inQueue ++ [v] := rfl

@[simp] theorem inputArrives_outAccepted (s : State) (v : Word) : (inputArrives v s).outAccepted = s.outAccepted := rfl

@[simp] theorem inputArrives_reports (s : State) (v : Word) : (inputArrives v s).reports = s.reports := rfl

/-! ### What the reads of memory and of the stack block depend on -/

/-- A word of memory depends on the blocks and the listed cells alone. -/
theorem wordAt_congr {s t : State} (hc : t.cfg = s.cfg) (hm : t.mem = s.mem) (a : Nat) : t.wordAt a = s.wordAt a := by
  simp [State.wordAt, hc, hm]

/-- A word of the stack block depends on its size and the listed cells alone. -/
theorem stackAt_congr {s t : State} (hc : t.cfg = s.cfg) (hm : t.stack = s.stack) (i : Nat) :
    t.stackAt i = s.stackAt i := by
  simp [State.stackAt, hc, hm]

/-- The linear address depends on the bank register and the parameters alone. -/
theorem linAddr_congr {s t : State} (hc : t.cfg = s.cfg) (hm : t.mbe = s.mbe) (w : Word) : linAddr t w = linAddr s w := by
  simp [linAddr, hc, hm]

end Sys2Proof.Machine
end

