-- ==== Sys2Proof/Laws/Ops.lean ====
section
/-! SUPPORT. What each shared operation over memory, stack, ports and operands can do, said once. -/

namespace Sys2Proof.Machine

/-! ### The mapper -/

/-- No block covers an address exactly when it lies at or beyond the total size. -/
theorem resolveFrom_eq_none {bs : List Block} {k r : Nat} : resolveFrom k bs r = none ↔ totalSize bs ≤ r := by
  induction bs generalizing k r with
  | nil => simp [resolveFrom, totalSize]
  | cons b bs ih =>
    have : totalSize (b :: bs) = blockSize b + totalSize bs := by simp [totalSize]
    simp only [resolveFrom]
    split
    · simp; omega
    · rw [ih, this]; omega

/-- The walk over more blocks finds what the walk over the first ones finds. -/
theorem resolveFrom_append {bs cs : List Block} {k r : Nat} (h : r < totalSize bs) :
    resolveFrom k (bs ++ cs) r = resolveFrom k bs r := by
  induction bs generalizing k r with
  | nil => simp [totalSize] at h
  | cons b bs ih =>
    have : totalSize (b :: bs) = blockSize b + totalSize bs := by simp [totalSize]
    simp only [List.cons_append, resolveFrom]
    split
    · rfl
    · exact ih (by omega)

theorem resolve_eq_none {bs : List Block} {a : Nat} : resolve bs a = none ↔ totalSize bs ≤ a := resolveFrom_eq_none

@[simp] theorem resolveInt_ofNat (bs : List Block) (a : Nat) : resolveInt bs (a : Int) = resolve bs a := rfl

/-- MemRead: a covered address gives its word and changes nothing; another gives 0 and a report. -/
theorem memRead_cases (addr : Int) (s : State) :
    (∃ p, resolveInt s.cfg.blocks addr = some p ∧ memRead addr s = (s.wordAt addr.toNat, s)) ∨
    (resolveInt s.cfg.blocks addr = none ∧ memRead addr s = (0, s.report (.memOobRead addr))) := by
  unfold memRead
  split
  · next p h => exact .inl ⟨p, h, rfl⟩
  · next h => exact .inr ⟨h, rfl⟩

/-- MemWrite: a covered address in a block that may be written is stored to, one in a read-only block is not, and
another is reported. -/
theorem memWrite_cases (addr : Int) (v : Word) (s : State) :
    (∃ k r, resolveInt s.cfg.blocks addr = some (k, r) ∧ blockReadOnly s.cfg.blocks k = false ∧
      memWrite addr v s = s.storeWord addr.toNat v) ∨
    (∃ k r, resolveInt s.cfg.blocks addr = some (k, r) ∧ blockReadOnly s.cfg.blocks k = true ∧
      memWrite addr v s = s) ∨
    (resolveInt s.cfg.blocks addr = none ∧ memWrite addr v s = s.report (.memOobWrite addr)) := by
  unfold memWrite
  split
  · next k r h =>
    split
    · next hr => exact .inr (.inl ⟨k, r, h, hr, rfl⟩)
    · next hr => exact .inl ⟨k, r, h, by simpa using hr, rfl⟩
  · next h => exact .inr (.inr ⟨h, rfl⟩)

/-- A read after a store to the same covered address gives the word stored. -/
theorem wordAt_storeWord_same {s : State} {a : Nat} {v : Word} (hw : Memory.wf s)
    (hc : a < totalSize s.cfg.blocks) : (s.storeWord a v).wordAt a = v := by
  have hn : resolve s.cfg.blocks a ≠ none := fun h => by have := resolve_eq_none.1 h; omega
  obtain ⟨p, hp⟩ := Option.ne_none_iff_exists'.1 hn
  simp only [State.wordAt, storeWord_cfg, storeWord_mem, hp]
  exact cellGet_cellSet_same hw.1

/-- A store leaves every other address alone. -/
theorem wordAt_storeWord_ne {s : State} {a b : Nat} {v : Word} (hb : b ≠ a) :
    (s.storeWord a v).wordAt b = s.wordAt b := by
  simp only [State.wordAt, storeWord_cfg, storeWord_mem, cellGet_cellSet_ne hb]

/-- A store keeps the canonical form. -/
theorem storeWord_wf {s : State} {a : Nat} {v : Word} (h : Memory.wf s) : Memory.wf (s.storeWord a v) :=
  cellSet_wf h

/-- A memory write keeps the canonical form. -/
theorem memWrite_wf {s : State} {addr : Int} {v : Word} (h : Memory.wf s) : Memory.wf (memWrite addr v s) := by
  rcases memWrite_cases addr v s with ⟨k, r, -, -, e⟩ | ⟨k, r, -, -, e⟩ | ⟨-, e⟩ <;> rw [e]
  · exact storeWord_wf h
  · exact h
  · exact h

/-- The memory after reset is in canonical form: nothing is listed. -/
theorem reset_memory_wf : Memory.wf State.reset := by decide

/-! ### The stack -/

/-- A push: a store at SP where it lies in the block, a report where not, and SP one up. -/
theorem stackPush_cases (v : Word) (s : State) :
    (u16 s.sp < s.cfg.stackSize ∧
      stackPush v s = { s with stack := cellSet 0 (u16 s.sp) v s.stack, sp := s.sp + 1 }) ∨
    (s.cfg.stackSize ≤ u16 s.sp ∧
      stackPush v s = { s with reports := s.reports ++ [.stackOobWrite s.sp], sp := s.sp + 1 }) := by
  by_cases h : u16 s.sp < s.cfg.stackSize
  · exact .inl ⟨h, by simp [stackPush, h, State.increment]⟩
  · exact .inr ⟨by omega, by simp [stackPush, h, State.increment, State.report]⟩

/-- A pop: SP one down, and then the word there, or 0 and a report. -/
theorem stackPop_cases (s : State) :
    (u16 (s.sp - 1) < s.cfg.stackSize ∧
      stackPop s = (s.stackAt (u16 (s.sp - 1)), { s with sp := s.sp - 1 })) ∨
    (s.cfg.stackSize ≤ u16 (s.sp - 1) ∧
      stackPop s = (0, { s with sp := s.sp - 1, reports := s.reports ++ [.stackOobRead (s.sp - 1)] })) := by
  by_cases h : u16 (s.sp - 1) < s.cfg.stackSize
  · refine .inl ⟨h, ?_⟩
    simp only [stackPop, State.decrement, getReg_sp, setReg_at_sp]
    exact (if_pos h).trans rfl
  · refine .inr ⟨by omega, ?_⟩
    simp only [stackPop, State.decrement, getReg_sp, setReg_at_sp]
    exact (if_neg h).trans rfl

/-- A push keeps the canonical form of the stack block. -/
theorem stackPush_wf {s : State} {v : Word} (h : Stack.wf s) : Stack.wf (stackPush v s) := by
  rcases stackPush_cases v s with ⟨-, e⟩ | ⟨-, e⟩ <;> rw [e]
  · exact cellSet_wf (unlisted := fun _ => 0) h
  · exact h

/-! ### Reading a register address, and resolving an operand

These reads can change the stack pointer (a pop), the input queue (a poll) and the reports, and nothing else. -/

/-- What a read with side effects may change. -/
theorem memRead_state (addr : Int) (s : State) :
    (memRead addr s).2 = { s with reports := (memRead addr s).2.reports } := by
  rcases memRead_cases addr s with ⟨p, -, e⟩ | ⟨-, e⟩
  · rw [e]
  · rw [e]; rfl

theorem memRead_reports (addr : Int) (s : State) : ∃ rs, (memRead addr s).2.reports = s.reports ++ rs := by
  rcases memRead_cases addr s with ⟨p, -, e⟩ | ⟨-, e⟩ <;> rw [e]
  · exact ⟨[], by simp⟩
  · exact ⟨[_], rfl⟩

theorem stackPop_state (s : State) :
    (stackPop s).2 = { s with sp := s.sp - 1, reports := (stackPop s).2.reports } := by
  rcases stackPop_cases s with ⟨-, e⟩ | ⟨-, e⟩ <;> rw [e]

theorem inPoll_eq (s : State) : inPoll s = (s.inQueue.headD 0, { s with inQueue := s.inQueue.tail }) := by
  obtain ⟨⟩ := s
  rename_i q _ _
  cases q <;> rfl

theorem regRead_state (raw : Word) (s : State) :
    (regRead raw s).2 =
      { s with
        sp := if regTarget s.cfg.regMap raw = some .stack then s.sp - 1 else s.sp
        inQueue := if regTarget s.cfg.regMap raw = some .input then s.inQueue.tail else s.inQueue
        reports := (regRead raw s).2.reports } := by
  unfold regRead
  split <;> rename_i h <;> simp only [h]
  · rfl
  · rw [stackPop_state]; simp
  · rw [inPoll_eq]; simp
  · rfl
  · rfl

theorem regRead_reports (raw : Word) (s : State) : ∃ rs, (regRead raw s).2.reports = s.reports ++ rs := by
  unfold regRead
  split
  · exact ⟨[], by simp⟩
  · rcases stackPop_cases s with ⟨-, e⟩ | ⟨-, e⟩ <;> rw [e]
    · exact ⟨[], by simp⟩
    · exact ⟨[_], rfl⟩
  · rw [inPoll_eq]; exact ⟨[], by simp⟩
  · exact ⟨[_], rfl⟩
  · exact ⟨[_], rfl⟩

/-- Resolving a source: a pop if it reads STACK, a poll if it reads IN, reports, and no other change. -/
theorem resolveSrc_state (o : Operand) (s : State) :
    (resolveSrc o s).2 =
      { s with
        sp := if srcReads s.cfg.regMap o .stack then s.sp - 1 else s.sp
        inQueue := if srcReads s.cfg.regMap o .input then s.inQueue.tail else s.inQueue
        reports := (resolveSrc o s).2.reports } := by
  unfold resolveSrc
  split <;> rename_i h <;> simp only [srcReads, h]
  · simp
  · rw [memRead_state, regRead_state]; simp
  · rw [memRead_state]; simp
  · rw [regRead_state]; simp

theorem resolveSrc_reports (o : Operand) (s : State) : ∃ rs, (resolveSrc o s).2.reports = s.reports ++ rs := by
  unfold resolveSrc
  split
  · exact ⟨[], by simp⟩
  · obtain ⟨rs, h⟩ := regRead_reports o.raw s
    obtain ⟨qs, g⟩ := memRead_reports (linAddr (regRead o.raw s).2 (regRead o.raw s).1) (regRead o.raw s).2
    exact ⟨rs ++ qs, by simp [g, h]⟩
  · exact memRead_reports _ _
  · exact regRead_reports _ _

/-- Resolving MOVE's destination: a pop or a poll if its pointer step reads STACK or IN, reports, and no other
change. -/
theorem resolveDst_state (o : Operand) (s : State) :
    (resolveDst o s).2 =
      { s with
        sp := if dstReads s.cfg.regMap o .stack then s.sp - 1 else s.sp
        inQueue := if dstReads s.cfg.regMap o .input then s.inQueue.tail else s.inQueue
        reports := (resolveDst o s).2.reports } := by
  unfold resolveDst
  split <;> rename_i h <;> simp only [dstReads, h]
  · rw [regRead_state]; simp
  · simp
  · simp

theorem resolveDst_reports (o : Operand) (s : State) : ∃ rs, (resolveDst o s).2.reports = s.reports ++ rs := by
  unfold resolveDst
  split
  · exact regRead_reports _ _
  · exact ⟨[], by simp⟩
  · exact ⟨[], by simp⟩

@[simp] theorem resolveSrc_r0 (o : Operand) (s : State) : (resolveSrc o s).2.r0 = s.r0 := by
  rw [resolveSrc_state]

@[simp] theorem resolveSrc_r1 (o : Operand) (s : State) : (resolveSrc o s).2.r1 = s.r1 := by
  rw [resolveSrc_state]

@[simp] theorem resolveSrc_r2 (o : Operand) (s : State) : (resolveSrc o s).2.r2 = s.r2 := by
  rw [resolveSrc_state]

@[simp] theorem resolveSrc_r3 (o : Operand) (s : State) : (resolveSrc o s).2.r3 = s.r3 := by
  rw [resolveSrc_state]

@[simp] theorem resolveSrc_acc0 (o : Operand) (s : State) : (resolveSrc o s).2.acc0 = s.acc0 := by
  rw [resolveSrc_state]

@[simp] theorem resolveSrc_acc1 (o : Operand) (s : State) : (resolveSrc o s).2.acc1 = s.acc1 := by
  rw [resolveSrc_state]

@[simp] theorem resolveSrc_flags (o : Operand) (s : State) : (resolveSrc o s).2.flags = s.flags := by
  rw [resolveSrc_state]

@[simp] theorem resolveSrc_ep (o : Operand) (s : State) : (resolveSrc o s).2.ep = s.ep := by
  rw [resolveSrc_state]

@[simp] theorem resolveSrc_mbe (o : Operand) (s : State) : (resolveSrc o s).2.mbe = s.mbe := by
  rw [resolveSrc_state]

@[simp] theorem resolveSrc_intc (o : Operand) (s : State) : (resolveSrc o s).2.intc = s.intc := by
  rw [resolveSrc_state]

@[simp] theorem resolveSrc_pending (o : Operand) (s : State) : (resolveSrc o s).2.pending = s.pending := by
  rw [resolveSrc_state]

@[simp] theorem resolveSrc_mem (o : Operand) (s : State) : (resolveSrc o s).2.mem = s.mem := by
  rw [resolveSrc_state]

@[simp] theorem resolveSrc_stack (o : Operand) (s : State) : (resolveSrc o s).2.stack = s.stack := by
  rw [resolveSrc_state]

@[simp] theorem resolveSrc_cfg (o : Operand) (s : State) : (resolveSrc o s).2.cfg = s.cfg := by
  rw [resolveSrc_state]

@[simp] theorem resolveSrc_outAccepted (o : Operand) (s : State) : (resolveSrc o s).2.outAccepted = s.outAccepted := by
  rw [resolveSrc_state]

theorem resolveSrc_sp (o : Operand) (s : State) :
    (resolveSrc o s).2.sp = if srcReads s.cfg.regMap o .stack then s.sp - 1 else s.sp := by
  rw [resolveSrc_state]

theorem resolveSrc_inQueue (o : Operand) (s : State) :
    (resolveSrc o s).2.inQueue = if srcReads s.cfg.regMap o .input then s.inQueue.tail else s.inQueue := by
  rw [resolveSrc_state]

@[simp] theorem resolveDst_r0 (o : Operand) (s : State) : (resolveDst o s).2.r0 = s.r0 := by
  rw [resolveDst_state]

@[simp] theorem resolveDst_r1 (o : Operand) (s : State) : (resolveDst o s).2.r1 = s.r1 := by
  rw [resolveDst_state]

@[simp] theorem resolveDst_r2 (o : Operand) (s : State) : (resolveDst o s).2.r2 = s.r2 := by
  rw [resolveDst_state]

@[simp] theorem resolveDst_r3 (o : Operand) (s : State) : (resolveDst o s).2.r3 = s.r3 := by
  rw [resolveDst_state]

@[simp] theorem resolveDst_acc0 (o : Operand) (s : State) : (resolveDst o s).2.acc0 = s.acc0 := by
  rw [resolveDst_state]

@[simp] theorem resolveDst_acc1 (o : Operand) (s : State) : (resolveDst o s).2.acc1 = s.acc1 := by
  rw [resolveDst_state]

@[simp] theorem resolveDst_flags (o : Operand) (s : State) : (resolveDst o s).2.flags = s.flags := by
  rw [resolveDst_state]

@[simp] theorem resolveDst_ep (o : Operand) (s : State) : (resolveDst o s).2.ep = s.ep := by
  rw [resolveDst_state]

@[simp] theorem resolveDst_mbe (o : Operand) (s : State) : (resolveDst o s).2.mbe = s.mbe := by
  rw [resolveDst_state]

@[simp] theorem resolveDst_intc (o : Operand) (s : State) : (resolveDst o s).2.intc = s.intc := by
  rw [resolveDst_state]

@[simp] theorem resolveDst_pending (o : Operand) (s : State) : (resolveDst o s).2.pending = s.pending := by
  rw [resolveDst_state]

@[simp] theorem resolveDst_mem (o : Operand) (s : State) : (resolveDst o s).2.mem = s.mem := by
  rw [resolveDst_state]

@[simp] theorem resolveDst_stack (o : Operand) (s : State) : (resolveDst o s).2.stack = s.stack := by
  rw [resolveDst_state]

@[simp] theorem resolveDst_cfg (o : Operand) (s : State) : (resolveDst o s).2.cfg = s.cfg := by
  rw [resolveDst_state]

@[simp] theorem resolveDst_outAccepted (o : Operand) (s : State) : (resolveDst o s).2.outAccepted = s.outAccepted := by
  rw [resolveDst_state]

theorem resolveDst_sp (o : Operand) (s : State) :
    (resolveDst o s).2.sp = if dstReads s.cfg.regMap o .stack then s.sp - 1 else s.sp := by
  rw [resolveDst_state]

theorem resolveDst_inQueue (o : Operand) (s : State) :
    (resolveDst o s).2.inQueue = if dstReads s.cfg.regMap o .input then s.inQueue.tail else s.inQueue := by
  rw [resolveDst_state]


/-! ### Writing a destination -/

/-- Writing a register address: a cell, a push, the output port, or a report. -/
theorem regWrite_cases (raw v : Word) (s : State) :
    (∃ r, regTarget s.cfg.regMap raw = some (.cell r) ∧ regWrite raw v s = s.setReg r v) ∨
    (regTarget s.cfg.regMap raw = some .stack ∧ regWrite raw v s = stackPush v s) ∨
    (regTarget s.cfg.regMap raw = some .output ∧ regWrite raw v s = outAccept v s) ∨
    ((regTarget s.cfg.regMap raw = some .input ∨ regTarget s.cfg.regMap raw = none) ∧
      regWrite raw v s = s.report (.regInvalidWrite raw)) := by
  unfold regWrite
  split <;> rename_i h
  · exact .inl ⟨_, h, rfl⟩
  · exact .inr (.inl ⟨h, rfl⟩)
  · exact .inr (.inr (.inl ⟨h, rfl⟩))
  · exact .inr (.inr (.inr ⟨.inl h, rfl⟩))
  · exact .inr (.inr (.inr ⟨.inr h, rfl⟩))

/-- A resolved destination: a linear address when its mode is not direct, the register address when it is. -/
theorem resolveDst_dest (o : Operand) (s : State) :
    (dstMode o = .direct ∧ resolveDst o s = (.register o.raw, s)) ∨
    (dstMode o = .memory ∧ resolveDst o s = (.memory (linAddr s o.raw), s)) ∨
    (dstMode o = .pointer ∧
      resolveDst o s = (.memory (linAddr (regRead o.raw s).2 (regRead o.raw s).1), (regRead o.raw s).2)) := by
  unfold resolveDst
  split <;> rename_i h
  · exact .inr (.inr ⟨h, rfl⟩)
  · exact .inr (.inl ⟨h, rfl⟩)
  · exact .inl ⟨h, rfl⟩

@[simp] theorem reportOpt_none (s : State) : s.reportOpt none = s := rfl

@[simp] theorem reportOpt_some (s : State) (r : Report) : s.reportOpt (some r) = s.report r := rfl

/-- An optional report changes the reports alone. -/
theorem reportOpt_state (s : State) (r : Option Report) :
    s.reportOpt r = { s with reports := s.reports ++ r.toList } := by
  cases r <;> simp [State.report]

end Sys2Proof.Machine
end

