-- ==== Sys2Proof/Laws/Exec.lean ====
section
/-! SUPPORT. What each class of instructions and each step can do, said once. -/

namespace Sys2Proof.Machine

/-- Every math instruction is `mathClass` with an ALU operation. -/
theorem exec_math {i : Instr} (h : i.cls = .math) :
    ∃ o : AluOp, ∀ s, exec i s = mathClass o i.operand0 i.operand1 s := by
  cases i <;> first | (cases h; done) | exact ⟨_, fun _ => rfl⟩

/-- Every jump is `jumpClass` with a comparison. -/
theorem exec_jump {i : Instr} (h : i.cls = .jump) :
    ∃ o : CmpOp, ∀ s, exec i s = jumpClass o i.operand0 i.operand1 s := by
  cases i <;> first | (cases h; done) | exact ⟨_, fun _ => rfl⟩

/-- The shape of an instruction by its class. -/
theorem instr_cases (i : Instr) :
    i.cls = .math ∨ i.cls = .jump ∨ (∃ src dst, i = .move src dst) ∨ (∃ src x, i = .int src x) ∨
      ∃ opc a b, i = .unknown opc a b := by
  cases i <;> simp [Instr.cls]

/-- Executing the instruction of an ALU operation is the math class with it. -/
theorem exec_aluOp_instr (o : AluOp) (a b : Operand) (s : State) : exec (o.instr a b) s = mathClass o a b s := by
  cases o <;> first | rfl | skip
  simp only [AluOp.instr]
  split
  · next h => subst h; rfl
  · rfl

/-- Executing the instruction of a comparison is the jump class with it. -/
theorem exec_cmpOp_instr (o : CmpOp) (a b : Operand) (s : State) : exec (o.instr a b) s = jumpClass o a b s := by
  cases o <;> first | rfl | skip
  simp only [CmpOp.instr]
  split
  · next h => subst h; rfl
  · split <;> rfl

/-- The ALU without a comparison request runs the operation of the kind. -/
theorem alu_operation {cfg : Config} {op5 : BitVec 5} (h : op5.getLsbD 4 = false) (a b : Word) :
    alu cfg op5 a b = aluOperate cfg (cfg.opcodes.aluOp (op5.extractLsb' 0 4)) a b := by
  simp only [alu, h]
  rfl

/-- The ALU with a comparison request makes the comparison of the kind. -/
theorem alu_comparison {cfg : Config} {op5 : BitVec 5} (h : op5.getLsbD 4 = true) (a b : Word) :
    alu cfg op5 a b = aluCompare (cfg.opcodes.cmpOp (op5.extractLsb' 0 4)) a b := by
  simp only [alu, h]
  rfl

/-- The next state of the math class, field by field. -/
theorem mathClass_eq (o : AluOp) (a b : Operand) (s : State) :
    mathClass o a b s =
      let x := resolveSrc a s
      let y := resolveSrc b x.2
      let r := aluOperate s.cfg o x.1 y.1
      .next { y.2 with
        acc0 := r.primary, acc1 := r.secondary, flags := flagsWord r.flags
        reports := y.2.reports ++ r.report.toList } := by
  simp only [mathClass, reportOpt_state]

/-- The next state of the jump class, field by field. -/
theorem jumpClass_eq (o : CmpOp) (a b : Operand) (s : State) :
    jumpClass o a b s =
      let x := resolveSrc a s
      let y := resolveSrc b x.2
      let r := aluCompare o x.1 y.1
      .next { y.2 with
        flags := flagsWord r.flags
        ep := if r.comparison then s.r3 else s.ep
        reports := y.2.reports ++ r.report.toList } := by
  simp only [jumpClass, reportOpt_state]
  split
  · simp
  · simp

/-- A word fetched: the word at EP, EP one up, and a report where no block covers it. -/
theorem fetchWord_cases (s : State) :
    (u16 s.ep < totalSize s.cfg.blocks ∧ fetchWord s = (s.wordAt (u16 s.ep), { s with ep := s.ep + 1 })) ∨
    (totalSize s.cfg.blocks ≤ u16 s.ep ∧
      fetchWord s =
        (0, { s with ep := s.ep + 1, reports := s.reports ++ [.memOobRead (u16 s.ep : Int)] })) := by
  rcases memRead_cases (u16 s.ep : Int) s with ⟨p, hp, e⟩ | ⟨hn, e⟩
  · refine .inl ⟨?_, by simp [fetchWord, e, State.increment]⟩
    by_contra hc
    rw [resolveInt_ofNat, resolve_eq_none.2 (by omega)] at hp
    cases hp
  · exact .inr ⟨resolve_eq_none.1 hn, by simp [fetchWord, e, State.increment, State.report]⟩

/-- An address that no block covers reads as 0. -/
theorem wordAt_uncovered {s : State} {a : Nat} (h : totalSize s.cfg.blocks ≤ a) : s.wordAt a = 0 := by
  simp only [State.wordAt, resolve_eq_none.2 h]

/-- A word fetched, in one equation. -/
theorem fetchWord_eq (s : State) :
    fetchWord s = (s.wordAt (u16 s.ep),
      { s with
        ep := s.ep + 1
        reports := s.reports ++ if totalSize s.cfg.blocks ≤ u16 s.ep then [.memOobRead (u16 s.ep : Int)] else [] }) := by
  rcases fetchWord_cases s with ⟨h, e⟩ | ⟨h, e⟩ <;> rw [e]
  · rw [if_neg (by omega), List.append_nil]
  · rw [if_pos h, wordAt_uncovered h]

/-- A fetch changes EP and the reports alone. -/
theorem fetch_state (s : State) :
    (fetch s).2 = { s with ep := s.ep + 3, reports := (fetch s).2.reports } := by
  have h1 : ∀ u : State, (fetchWord u).2 = { u with ep := u.ep + 1, reports := (fetchWord u).2.reports } := by
    intro u
    rcases fetchWord_cases u with ⟨-, e⟩ | ⟨-, e⟩ <;> rw [e]
  have h3 : s.ep + 1 + 1 + 1 = s.ep + 3 := by bv_omega
  simp only [fetch]
  rw [h1, h1, h1]
  simp only [h3]

/-- What a step can do: service the pending interrupt, or execute what it fetched. -/
theorem step_cases (s : State) :
    (s.pending = true ∧ step s = .next (service s)) ∨
    (s.pending = false ∧ step s = exec ((fetch s).1.instr s.cfg.opcodes) (fetch s).2) := by
  cases h : s.pending
  · exact .inr ⟨rfl, by simp [step, h]⟩
  · exact .inl ⟨rfl, by simp [step, h]⟩

end Sys2Proof.Machine
end

