-- ==== Sys2Proof/Laws/Alu.lean ====
section
/-! SUPPORT. The math and jump classes in the terms of the statements, and 16-bit arithmetic through integers. -/

namespace Sys2Proof.Machine

/-- Truncating the exact sum of two words is their 16-bit sum. -/
theorem trunc16_add (x y : Word) : trunc16 (s16 x + s16 y) = x + y := by
  rw [trunc16, BitVec.ofInt_add, BitVec.ofInt_toInt, BitVec.ofInt_toInt]

/-- Truncating the exact difference of two words is their 16-bit difference. -/
theorem trunc16_sub (x y : Word) : trunc16 (s16 x - s16 y) = x - y := by
  rw [trunc16, sub_eq_add_neg, BitVec.ofInt_add, BitVec.ofInt_neg, BitVec.ofInt_toInt, BitVec.ofInt_toInt,
    BitVec.sub_eq_add_neg]

/-- Truncating the exact product of two words is their 16-bit product. -/
theorem trunc16_mul (x y : Word) : trunc16 (s16 x * s16 y) = x * y := by
  rw [trunc16, BitVec.ofInt_mul, BitVec.ofInt_toInt, BitVec.ofInt_toInt]

/-- An immediate operand is its raw word. -/
@[simp] theorem resolveSrc_immediate (v : Word) (s : State) : resolveSrc (.immediate v) s = (v, s) := rfl

/-- A direct operand is a read of its register address. -/
@[simp] theorem resolveSrc_direct (raw : Word) (s : State) : resolveSrc (.direct raw) s = regRead raw s := rfl

/-- A memory-direct operand is a read at its banked address. -/
@[simp] theorem resolveSrc_memoryAt (n : Word) (s : State) :
    resolveSrc (.memoryAt n) s = memRead (linAddr s n) s := rfl

/-- A pointer operand is a read at the banked address that its register address holds. -/
@[simp] theorem resolveSrc_pointerAt (raw : Word) (s : State) :
    resolveSrc (.pointerAt raw) s = memRead (linAddr (regRead raw s).2 (regRead raw s).1) (regRead raw s).2 := rfl

/-- The math class, once the operation's results are known. -/
theorem mathClass_of_operate {o : AluOp} {a b : Operand} {s : State} {p q : Word} {rep : Option Report}
    (ho : operate s.cfg o (resolveSrc a s).1 (resolveSrc b (resolveSrc a s).2).1 = ((p, q), rep)) :
    mathClass o a b s =
      .next (mathNext ((resolveSrc b (resolveSrc a s).2).2.reportOpt rep) p q
        (flagsByte (resolveSrc a s).1 (resolveSrc b (resolveSrc a s).2).1 p q)) := by
  simp only [mathClass, aluOperate, ho]
  rfl

/-- The jump class, once the comparison is known. -/
theorem jumpClass_of_compare {o : CmpOp} {a b : Operand} {s : State} {c : Bool} {rep : Option Report}
    (ho : compare o (resolveSrc a s).1 (resolveSrc b (resolveSrc a s).2).1 = (c, rep)) :
    jumpClass o a b s =
      .next (jumpNext ((resolveSrc b (resolveSrc a s).2).2.reportOpt rep)
        (flagsByte (resolveSrc a s).1 (resolveSrc b (resolveSrc a s).2).1 (resolveSrc a s).1
          (resolveSrc b (resolveSrc a s).2).1) c) := by
  simp only [jumpClass, aluCompare, ho, jumpNext, flagsWord]
  cases c <;> rfl

/-- The state after a math instruction with its words named. -/
theorem mathNext_eq {s : State} {p q w : Word} {f : BitVec 8} (h : f.setWidth 16 = w) :
    mathNext s p q f = { s with acc0 := p, acc1 := q, flags := w } := by
  subst h; rfl

/-- The state after a jump with its FLAGS word named. -/
theorem jumpNext_eq {s : State} {w : Word} {f : BitVec 8} {c : Bool} (h : f.setWidth 16 = w) :
    jumpNext s f c = { s with flags := w, ep := if c then s.r3 else s.ep } := by
  subst h; rfl

end Sys2Proof.Machine
end

