-- ==== Sys2Proof/Laws/Encoding.lean ====
section
/-! SUPPORT. The fields of an opcode word (rule R64). -/

namespace Sys2Proof

/-- The cleaned opcode is the low ten bits. -/
@[simp] theorem cleanedOpcode_opcodeWord (a b : Operand) (opc : BitVec 10) :
    cleanedOpcode (opcodeWord a b opc) = opc := by
  simp only [cleanedOpcode, opcodeWord]
  exact BitVec.extractLsb'_append_eq_right ..

/-- Bits 15, 13 and 11 are param0's flags. -/
@[simp] theorem decodeOperand0_opcodeWord (a b : Operand) (opc : BitVec 10) :
    decodeOperand0 (opcodeWord a b opc) a.raw = a := by
  simp only [decodeOperand0, opcodeWord, BitVec.getLsbD_append, BitVec.getLsbD_ofBool]
  simp

/-- Bits 14, 12 and 10 are param1's flags. -/
@[simp] theorem decodeOperand1_opcodeWord (a b : Operand) (opc : BitVec 10) :
    decodeOperand1 (opcodeWord a b opc) b.raw = b := by
  simp only [decodeOperand1, opcodeWord, BitVec.getLsbD_append, BitVec.getLsbD_ofBool]
  simp

end Sys2Proof
end

