-- ==== Sys2Proof/Laws/Maps.lean ====
section
/-! SUPPORT. The configuration tables: the register address map (rule R20) and the opcode values (rules R69 to R71),
each said once as a correspondence between names and numbers. -/

namespace Sys2Proof

/-- In a list whose images are distinct, `find?` of an image finds its preimage. -/
theorem find?_of_nodup {α β : Type} [BEq β] [LawfulBEq β] {f : α → β} {l : List α} {x : α}
    (h : (l.map f).Nodup) (hx : x ∈ l) : l.find? (fun y => f y == f x) = some x := by
  induction l with
  | nil => simp at hx
  | cons y l ih =>
    simp only [List.map_cons, List.nodup_cons, List.mem_map, not_exists, not_and] at h
    rcases List.mem_cons.1 hx with rfl | hx
    · simp
    · rw [List.find?_cons_of_neg, ih h.2 hx]
      intro hc
      exact h.1 x hx (eq_of_beq hc).symm

/-! ### Opcode values -/

theorem OpcodeMap.aluKinds_eq (m : OpcodeMap) : m.aluKinds = namedAluOps.map m.aluKind := rfl

theorem OpcodeMap.cmpKinds_eq (m : OpcodeMap) : m.cmpKinds = namedCmpOps.map m.cmpKind := rfl

/-- An ALU operation is named or reserved. -/
theorem AluOp.named_or_reserved (o : AluOp) : o ∈ namedAluOps ∨ ∃ kind, o = .reserved kind := by
  cases o <;> simp [namedAluOps]

/-- A comparison is named or reserved. -/
theorem CmpOp.named_or_reserved (o : CmpOp) : o ∈ namedCmpOps ∨ ∃ kind, o = .reserved kind := by
  cases o <;> simp [namedCmpOps]

/-- The ALU operation of a kind has that kind, whatever the map. -/
@[simp] theorem OpcodeMap.aluKind_aluOp (m : OpcodeMap) (kind : BitVec 4) : m.aluKind (m.aluOp kind) = kind := by
  unfold OpcodeMap.aluOp
  cases h : namedAluOps.find? (fun o => m.aluKind o == kind) with
  | none => rfl
  | some o => simpa using List.find?_some h

/-- The comparison of a kind has that kind, whatever the map. -/
@[simp] theorem OpcodeMap.cmpKind_cmpOp (m : OpcodeMap) (kind : BitVec 4) : m.cmpKind (m.cmpOp kind) = kind := by
  unfold OpcodeMap.cmpOp
  cases h : namedCmpOps.find? (fun o => m.cmpKind o == kind) with
  | none => rfl
  | some o => simpa using List.find?_some h

/-- In a numbering, the kind of a named operation names it. -/
theorem OpcodeMap.aluOp_aluKind {m : OpcodeMap} (h : m.aluKinds.Nodup) {o : AluOp} (ho : o ∈ namedAluOps) :
    m.aluOp (m.aluKind o) = o := by
  rw [OpcodeMap.aluOp, find?_of_nodup (aluKinds_eq m ▸ h) ho, Option.getD_some]

/-- In a numbering, the kind of a named comparison names it. -/
theorem OpcodeMap.cmpOp_cmpKind {m : OpcodeMap} (h : m.cmpKinds.Nodup) {o : CmpOp} (ho : o ∈ namedCmpOps) :
    m.cmpOp (m.cmpKind o) = o := by
  rw [OpcodeMap.cmpOp, find?_of_nodup (cmpKinds_eq m ▸ h) ho, Option.getD_some]

/-- A kind is reserved exactly when it is the kind of no name. -/
theorem OpcodeMap.aluOp_eq_reserved {m : OpcodeMap} {kind k : BitVec 4} :
    m.aluOp kind = .reserved k ↔ k = kind ∧ kind ∉ m.aluKinds := by
  rw [aluKinds_eq, OpcodeMap.aluOp]
  cases h : namedAluOps.find? (fun o => m.aluKind o == kind) with
  | none =>
    have hn : kind ∉ namedAluOps.map m.aluKind := by simpa using h
    simp [hn, eq_comm]
  | some o =>
    have hm := List.mem_of_find?_eq_some h
    have hk : m.aluKind o = kind := by simpa using List.find?_some h
    constructor
    · rintro rfl; simp [namedAluOps] at hm
    · rintro ⟨-, hn⟩; exact absurd (List.mem_map.2 ⟨o, hm, hk⟩) hn

/-- A kind is reserved exactly when it is the kind of no name. -/
theorem OpcodeMap.cmpOp_eq_reserved {m : OpcodeMap} {kind k : BitVec 4} :
    m.cmpOp kind = .reserved k ↔ k = kind ∧ kind ∉ m.cmpKinds := by
  rw [cmpKinds_eq, OpcodeMap.cmpOp]
  cases h : namedCmpOps.find? (fun o => m.cmpKind o == kind) with
  | none =>
    have hn : kind ∉ namedCmpOps.map m.cmpKind := by simpa using h
    simp [hn, eq_comm]
  | some o =>
    have hm := List.mem_of_find?_eq_some h
    have hk : m.cmpKind o = kind := by simpa using List.find?_some h
    constructor
    · rintro rfl; simp [namedCmpOps] at hm
    · rintro ⟨-, hn⟩; exact absurd (List.mem_map.2 ⟨o, hm, hk⟩) hn

/-- The decoder's test for a kind of the math class is the one of well-formedness. -/
theorem OpcodeMap.mathHas_eq (m : OpcodeMap) (kind : BitVec 4) :
    m.mathHas kind = (m.fullRanges || m.aluKinds.contains kind) := by
  rw [mathHas, aluKinds_eq, List.contains_map]
  simp only [Bool.beq_comm (a := kind)]

/-- The decoder's test for a kind of the jump class is the one of well-formedness. -/
theorem OpcodeMap.jumpHas_eq (m : OpcodeMap) (kind : BitVec 4) :
    m.jumpHas kind = (m.fullRanges || m.cmpKinds.contains kind) := by
  rw [jumpHas, cmpKinds_eq, List.contains_map]
  simp only [Bool.beq_comm (a := kind)]

/-- The class of a cleaned opcode, in the terms of well-formedness. -/
theorem classOf_eq (m : OpcodeMap) (opc : BitVec 10) :
    classOf m opc =
      if m.inMath opc then .math
      else if m.inJump opc then .jump
      else if opc = m.move then .move
      else if opc = m.int then .interrupt
      else .unknown := by
  simp only [classOf, OpcodeMap.inMath, OpcodeMap.inJump, OpcodeMap.mathHas_eq, OpcodeMap.jumpHas_eq,
    Bool.and_eq_true, beq_iff_eq]

/-- The high and the low field of an opcode put together from them. -/
@[simp] theorem high_append (high : BitVec 6) (kind : BitVec 4) :
    (high ++ kind : BitVec 10).extractLsb' 4 6 = high := BitVec.extractLsb'_append_eq_left ..

@[simp] theorem low_append (high : BitVec 6) (kind : BitVec 4) :
    (high ++ kind : BitVec 10).extractLsb' 0 4 = kind := BitVec.extractLsb'_append_eq_right ..

/-- A cleaned opcode is its high and its low field put together. -/
theorem append_high_low (opc : BitVec 10) : opc.extractLsb' 4 6 ++ opc.extractLsb' 0 4 = opc := by
  ext i hi
  simp only [BitVec.getElem_append, BitVec.getElem_extractLsb']
  split <;> simp_all [BitVec.getLsbD_eq_getElem]

/-- An opcode of the math class, put together from its fields. -/
@[simp] theorem OpcodeMap.inMath_append (m : OpcodeMap) (kind : BitVec 4) :
    m.inMath (m.mathHigh ++ kind) = (m.fullRanges || m.aluKinds.contains kind) := by
  simp only [inMath, high_append, low_append, BEq.rfl, Bool.true_and]

/-- An opcode of the jump class, put together from its fields. -/
@[simp] theorem OpcodeMap.inJump_append (m : OpcodeMap) (kind : BitVec 4) :
    m.inJump (m.jumpHigh ++ kind) = (m.fullRanges || m.cmpKinds.contains kind) := by
  simp only [inJump, high_append, low_append, BEq.rfl, Bool.true_and]

/-- Where the classes' high fields differ, no opcode of the jump class is one of the math class. -/
theorem OpcodeMap.inMath_jump {m : OpcodeMap} (h : m.mathHigh ≠ m.jumpHigh) (kind : BitVec 4) :
    m.inMath (m.jumpHigh ++ kind) = false := by
  simp only [inMath, high_append, beq_eq_false_iff_ne.2 h.symm, Bool.false_and]

end Sys2Proof

namespace Sys2Proof.Machine

/-! ### The register address map -/

theorem addresses_eq (m : RegisterMap) : m.addresses = regTargets.map (addressOf m) := rfl

theorem mem_regTargets (t : RegTarget) : t ∈ regTargets := by
  cases t with
  | cell r => cases r <;> simp [regTargets]
  | _ => simp [regTargets]

/-- What a register address names has that address, whatever the map. -/
theorem addressOf_of_regTarget {m : RegisterMap} {raw : Word} {t : RegTarget} (h : regTarget m raw = some t) :
    addressOf m t = raw := by
  simpa using List.find?_some h

/-- In a numbering, the address of a name names it. -/
theorem regTarget_addressOf {m : RegisterMap} (h : m.valid) (t : RegTarget) : regTarget m (addressOf m t) = some t :=
  find?_of_nodup (f := addressOf m) (addresses_eq m ▸ h) (mem_regTargets t)

/-- A register address names nothing exactly when it is the address of no name. -/
theorem regTarget_eq_none {m : RegisterMap} {raw : Word} : regTarget m raw = none ↔ raw ∉ m.addresses := by
  simp [regTarget, addresses_eq]

end Sys2Proof.Machine
end

