-- ==== Sys2Proof/Laws/PerInstr.lean ====
section
/-! SUPPORT. The statements made per instruction (LAWS.json): one lemma per constructor of `Instr`. -/

namespace Sys2Proof.Laws

/-- R63, R64: an instruction is three words, its opcode in the low ten bits of the first, its raw operands in the other
two; and if it is well formed under opcode values that are a numbering, its class is the class of its opcode (R70). -/
def EncodeShape.Statement (i : Instr) : Prop :=
  ∀ m : OpcodeMap,
    (∃ w : Word, encode m i = [w, i.operand0.raw, i.operand1.raw] ∧ cleanedOpcode w = i.opcode m) ∧
      (m.valid → i.wf m = true → classOf m (i.opcode m) = i.cls)

/-- The part about the words holds of every instruction alike. -/
theorem encode_words (m : OpcodeMap) (i : Instr) :
    ∃ w : Word, encode m i = [w, i.operand0.raw, i.operand1.raw] ∧ cleanedOpcode w = i.opcode m :=
  ⟨_, rfl, cleanedOpcode_opcodeWord ..⟩

/-- An opcode of the math class whose kind belongs to it. -/
theorem classOf_math {m : OpcodeMap} {kind : BitVec 4} (h : m.fullRanges = true ∨ kind ∈ m.aluKinds) :
    classOf m (m.mathHigh ++ kind) = .math := by
  rw [classOf_eq, OpcodeMap.inMath_append, if_pos (by simpa using h)]

/-- An opcode of the jump class whose kind belongs to it. -/
theorem classOf_jump {m : OpcodeMap} (hv : m.valid) {kind : BitVec 4}
    (h : m.fullRanges = true ∨ kind ∈ m.cmpKinds) : classOf m (m.jumpHigh ++ kind) = .jump := by
  rw [classOf_eq, OpcodeMap.inMath_jump hv.2.2.1, OpcodeMap.inJump_append, if_neg (by simp),
    if_pos (by simpa using h)]

theorem EncodeShape.noop (a b : Operand) : EncodeShape.Statement (.noop a b) :=
  fun m => ⟨encode_words m _, fun _ _ => classOf_math (.inr (by simp [OpcodeMap.aluKinds]))⟩

theorem EncodeShape.add (a b : Operand) : EncodeShape.Statement (.add a b) :=
  fun m => ⟨encode_words m _, fun _ _ => classOf_math (.inr (by simp [OpcodeMap.aluKinds]))⟩

theorem EncodeShape.sub (a b : Operand) : EncodeShape.Statement (.sub a b) :=
  fun m => ⟨encode_words m _, fun _ _ => classOf_math (.inr (by simp [OpcodeMap.aluKinds]))⟩

theorem EncodeShape.mul (a b : Operand) : EncodeShape.Statement (.mul a b) :=
  fun m => ⟨encode_words m _, fun _ _ => classOf_math (.inr (by simp [OpcodeMap.aluKinds]))⟩

theorem EncodeShape.div (a b : Operand) : EncodeShape.Statement (.div a b) :=
  fun m => ⟨encode_words m _, fun _ _ => classOf_math (.inr (by simp [OpcodeMap.aluKinds]))⟩

theorem EncodeShape.mod (a b : Operand) : EncodeShape.Statement (.mod a b) :=
  fun m => ⟨encode_words m _, fun _ _ => classOf_math (.inr (by simp [OpcodeMap.aluKinds]))⟩

theorem EncodeShape.and (a b : Operand) : EncodeShape.Statement (.and a b) :=
  fun m => ⟨encode_words m _, fun _ _ => classOf_math (.inr (by simp [OpcodeMap.aluKinds]))⟩

theorem EncodeShape.or (a b : Operand) : EncodeShape.Statement (.or a b) :=
  fun m => ⟨encode_words m _, fun _ _ => classOf_math (.inr (by simp [OpcodeMap.aluKinds]))⟩

theorem EncodeShape.xor (a b : Operand) : EncodeShape.Statement (.xor a b) :=
  fun m => ⟨encode_words m _, fun _ _ => classOf_math (.inr (by simp [OpcodeMap.aluKinds]))⟩

theorem EncodeShape.shl (a b : Operand) : EncodeShape.Statement (.shl a b) :=
  fun m => ⟨encode_words m _, fun _ _ => classOf_math (.inr (by simp [OpcodeMap.aluKinds]))⟩

theorem EncodeShape.shr (a b : Operand) : EncodeShape.Statement (.shr a b) :=
  fun m => ⟨encode_words m _, fun _ _ => classOf_math (.inr (by simp [OpcodeMap.aluKinds]))⟩

theorem EncodeShape.mathUnk11 (a b : Operand) : EncodeShape.Statement (.mathUnk11 a b) :=
  fun m => ⟨encode_words m _, fun _ hw => classOf_math (.inl (by
    simp_all [Instr.wf, OpcodeMap.mathReserved]))⟩

theorem EncodeShape.mathUnk12 (k : BitVec 4) (a b : Operand) : EncodeShape.Statement (.mathUnk12 k a b) :=
  fun m => ⟨encode_words m _, fun _ hw => classOf_math (.inl (by
    simp_all [Instr.wf, OpcodeMap.mathReserved]))⟩

theorem EncodeShape.jeq (a b : Operand) : EncodeShape.Statement (.jeq a b) :=
  fun m => ⟨encode_words m _, fun hv _ => classOf_jump hv (.inr (by simp [OpcodeMap.cmpKinds]))⟩

theorem EncodeShape.jlt (a b : Operand) : EncodeShape.Statement (.jlt a b) :=
  fun m => ⟨encode_words m _, fun hv _ => classOf_jump hv (.inr (by simp [OpcodeMap.cmpKinds]))⟩

theorem EncodeShape.jle (a b : Operand) : EncodeShape.Statement (.jle a b) :=
  fun m => ⟨encode_words m _, fun hv _ => classOf_jump hv (.inr (by simp [OpcodeMap.cmpKinds]))⟩

theorem EncodeShape.jgt (a b : Operand) : EncodeShape.Statement (.jgt a b) :=
  fun m => ⟨encode_words m _, fun hv _ => classOf_jump hv (.inr (by simp [OpcodeMap.cmpKinds]))⟩

theorem EncodeShape.jge (a b : Operand) : EncodeShape.Statement (.jge a b) :=
  fun m => ⟨encode_words m _, fun hv _ => classOf_jump hv (.inr (by simp [OpcodeMap.cmpKinds]))⟩

theorem EncodeShape.jumpUnk5 (a b : Operand) : EncodeShape.Statement (.jumpUnk5 a b) :=
  fun m => ⟨encode_words m _, fun hv hw => classOf_jump hv (.inl (by
    simp_all [Instr.wf, OpcodeMap.jumpReserved]))⟩

theorem EncodeShape.jumpUnk6 (k : BitVec 4) (a b : Operand) : EncodeShape.Statement (.jumpUnk6 k a b) :=
  fun m => ⟨encode_words m _, fun hv hw => classOf_jump hv (.inl (by
    simp_all [Instr.wf, OpcodeMap.jumpReserved]))⟩

theorem EncodeShape.jumpUnk8 (k : BitVec 4) (a b : Operand) : EncodeShape.Statement (.jumpUnk8 k a b) :=
  fun m => ⟨encode_words m _, fun hv hw => classOf_jump hv (.inl (by
    simp_all [Instr.wf, OpcodeMap.jumpReserved]))⟩

theorem EncodeShape.move (a b : Operand) : EncodeShape.Statement (.move a b) :=
  fun m => ⟨encode_words m _, fun hv _ => by
    simp [classOf_eq, Instr.opcode, Instr.cls, hv.2.2.2.2.1, hv.2.2.2.2.2.2.1]⟩

theorem EncodeShape.int (a b : Operand) : EncodeShape.Statement (.int a b) :=
  fun m => ⟨encode_words m _, fun hv _ => by
    simp [classOf_eq, Instr.opcode, Instr.cls, hv.2.2.2.1.symm, hv.2.2.2.2.2.1, hv.2.2.2.2.2.2.2]⟩

theorem EncodeShape.unknown (k : BitVec 10) (a b : Operand) : EncodeShape.Statement (.unknown k a b) :=
  fun m => ⟨encode_words m _, fun _ hw => by
    simp only [Instr.wf, OpcodeMap.isUnknown, Bool.and_eq_true, Bool.not_eq_true', bne_iff_ne] at hw
    simp [classOf_eq, Instr.opcode, Instr.cls, hw]⟩

end Sys2Proof.Laws
end

