-- ==== Sys2Proof/Laws/Reads.lean ====
section
/-! SUPPORT. What resolving an operand does not look at: a register that it does not name, the pending flag, and the
reports emitted before. -/

namespace Sys2Proof.Machine

/-! ### A register that the operand does not name -/

theorem linAddr_setReg {r : Reg} (h : r ≠ .mbe) (s : State) (v offset : Word) :
    linAddr (s.setReg r v) offset = linAddr s offset := by
  have hm : (s.setReg r v).mbe = s.mbe := getReg_setReg_ne s (q := .mbe) v h.symm
  simp only [linAddr, setReg_cfg, hm]

theorem wordAt_setReg (s : State) (r : Reg) (v : Word) (a : Nat) : (s.setReg r v).wordAt a = s.wordAt a := by
  simp only [State.wordAt, setReg_cfg, setReg_mem]

theorem report_setReg (s : State) (r : Reg) (v : Word) (x : Report) :
    (s.setReg r v).report x = (s.report x).setReg r v := by
  cases r <;> rfl

theorem memRead_setReg (addr : Int) (s : State) (r : Reg) (v : Word) :
    memRead addr (s.setReg r v) = ((memRead addr s).1, (memRead addr s).2.setReg r v) := by
  rcases memRead_cases addr s with ⟨p, hp, e⟩ | ⟨hn, e⟩
  · rw [e]; simp only [memRead, setReg_cfg, hp, wordAt_setReg]
  · rw [e]; simp only [memRead, setReg_cfg, hn, report_setReg]

theorem memWrite_setReg (addr : Int) (w : Word) (s : State) (r : Reg) (v : Word) :
    memWrite addr w (s.setReg r v) = (memWrite addr w s).setReg r v := by
  rcases memWrite_cases addr w s with ⟨k, q, h, hr, e⟩ | ⟨k, q, h, hr, e⟩ | ⟨h, e⟩ <;> rw [e]
  · simp only [memWrite, setReg_cfg, h, hr]; cases r <;> rfl
  · simp only [memWrite, setReg_cfg, h, hr]; rfl
  · simp only [memWrite, setReg_cfg, h, report_setReg]

theorem stackPop_setReg {r : Reg} (h : r ≠ .sp) (s : State) (v : Word) :
    stackPop (s.setReg r v) = ((stackPop s).1, (stackPop s).2.setReg r v) := by
  rcases stackPop_cases s with ⟨hb, e⟩ | ⟨hb, e⟩ <;> rw [e] <;>
    rcases stackPop_cases (s.setReg r v) with ⟨hb', e'⟩ | ⟨hb', e'⟩ <;>
    cases r <;> first | exact absurd rfl h | (simp at hb hb'; omega) | (rw [e']; rfl)

theorem stackPush_setReg {r : Reg} (h : r ≠ .sp) (w : Word) (s : State) (v : Word) :
    stackPush w (s.setReg r v) = (stackPush w s).setReg r v := by
  rcases stackPush_cases w s with ⟨hb, e⟩ | ⟨hb, e⟩ <;> rw [e] <;>
    rcases stackPush_cases w (s.setReg r v) with ⟨hb', e'⟩ | ⟨hb', e'⟩ <;>
    cases r <;> first | exact absurd rfl h | (simp at hb hb'; omega) | (rw [e']; rfl)

theorem inPoll_setReg (s : State) (r : Reg) (v : Word) :
    inPoll (s.setReg r v) = ((inPoll s).1, (inPoll s).2.setReg r v) := by
  rw [inPoll_eq, inPoll_eq]
  cases r <;> rfl

theorem setReg_comm {r q : Reg} (h : q ≠ r) (s : State) (v w : Word) :
    (s.setReg r v).setReg q w = (s.setReg q w).setReg r v := by
  cases r <;> cases q <;> first | rfl | exact absurd rfl h

/-- A register that the operand does not name: with another value there, a read of the register address gives the same
value, and leaves that register alone. -/
theorem regRead_setReg {s : State} {raw : Word} {r : Reg} (hr : regTarget s.cfg.regMap raw ≠ some (.cell r))
    (h : r ≠ .sp) (v : Word) : regRead raw (s.setReg r v) = ((regRead raw s).1, (regRead raw s).2.setReg r v) := by
  unfold regRead
  rw [setReg_cfg]
  split <;> rename_i heq
  · next q =>
    have hq : q ≠ r := by rintro rfl; exact hr heq
    rw [getReg_setReg_ne _ _ hq]
  · rw [stackPop_setReg h]
  · rw [inPoll_setReg]
  · rw [report_setReg]
  · rw [report_setReg]

theorem resolveSrc_setReg {s : State} {o : Operand} {r : Reg} (hr : ¬ srcReads s.cfg.regMap o (.cell r)) (h : r ≠ .sp)
    (hm : r ≠ .mbe) (v : Word) :
    resolveSrc o (s.setReg r v) = ((resolveSrc o s).1, (resolveSrc o s).2.setReg r v) := by
  unfold resolveSrc
  split <;> rename_i heq
  · rfl
  · have ht : regTarget s.cfg.regMap o.raw ≠ some (.cell r) := fun hc => hr ⟨.inr heq, hc⟩
    rw [regRead_setReg ht h]
    simp only [linAddr_setReg hm, memRead_setReg]
  · rw [linAddr_setReg hm, memRead_setReg]
  · have ht : regTarget s.cfg.regMap o.raw ≠ some (.cell r) := fun hc => hr ⟨.inl heq, hc⟩
    rw [regRead_setReg ht h]

theorem resolveDst_setReg {s : State} {o : Operand} {r : Reg} (hr : ¬ dstReads s.cfg.regMap o (.cell r)) (h : r ≠ .sp)
    (hm : r ≠ .mbe) (v : Word) :
    resolveDst o (s.setReg r v) = ((resolveDst o s).1, (resolveDst o s).2.setReg r v) := by
  unfold resolveDst
  split <;> rename_i heq
  · have ht : regTarget s.cfg.regMap o.raw ≠ some (.cell r) := fun hc => hr ⟨heq, hc⟩
    rw [regRead_setReg ht h]
    simp only [linAddr_setReg hm]
  · rw [linAddr_setReg hm]
  · rfl

/-- Writing a destination other than the register itself leaves that register alone. -/
theorem writeDst_setReg {s : State} {d : Dest} {r : Reg} (h : r ≠ .sp) (w v : Word)
    (hd : ∀ raw, d = .register raw → regTarget s.cfg.regMap raw ≠ some (.cell r)) :
    writeDst d w (s.setReg r v) = (writeDst d w s).setReg r v := by
  cases d with
  | memory addr => exact memWrite_setReg ..
  | register raw =>
    simp only [writeDst, regWrite, setReg_cfg]
    split <;> rename_i heq
    · next q => exact setReg_comm (by rintro rfl; exact hd raw rfl heq) ..
    · exact stackPush_setReg h ..
    · cases r <;> rfl
    · exact report_setReg ..
    · exact report_setReg ..

/-! ### The pending flag and the reports before -/

/-- The state with another pending flag and with other reports before those of `s`. -/
def State.rebase (s : State) (p : Bool) (before emitted : List Report) : State :=
  { s with pending := p, reports := before ++ emitted }

@[simp] theorem rebase_cfg (s : State) (p : Bool) (before emitted : List Report) :
    (s.rebase p before emitted).cfg = s.cfg := rfl

/-- Resolving a source emits the same reports, and gives the same value, whatever stands before and whatever is
pending. -/
theorem memRead_rebase (addr : Int) (s : State) (p : Bool) (before emitted : List Report) :
    ∃ new : List Report, (memRead addr s).2.reports = s.reports ++ new ∧
      memRead addr (s.rebase p before emitted) =
        ((memRead addr s).1, (memRead addr s).2.rebase p before (emitted ++ new)) := by
  rcases memRead_cases addr s with ⟨q, hq, e⟩ | ⟨hn, e⟩ <;> rw [e]
  · exact ⟨[], by simp, by simp only [memRead, State.rebase, hq, List.append_nil]; rfl⟩
  · exact ⟨[.memOobRead addr], rfl, by simp only [memRead, State.rebase, hn, State.report, List.append_assoc]⟩

theorem regRead_rebase (raw : Word) (s : State) (p : Bool) (before emitted : List Report) :
    ∃ new : List Report, (regRead raw s).2.reports = s.reports ++ new ∧
      regRead raw (s.rebase p before emitted) =
        ((regRead raw s).1, (regRead raw s).2.rebase p before (emitted ++ new)) := by
  unfold regRead
  rw [rebase_cfg]
  split
  · next r _ => exact ⟨[], by simp, by cases r <;> simp [State.rebase]⟩
  · rcases stackPop_cases s with ⟨hb, e⟩ | ⟨hb, e⟩ <;> rw [e] <;>
      rcases stackPop_cases (s.rebase p before emitted) with ⟨hb', e'⟩ | ⟨hb', e'⟩ <;>
      simp only [State.rebase] at hb hb' e' ⊢ <;> first | omega | rw [e']
    · exact ⟨[], by simp, by simp; rfl⟩
    · exact ⟨[_], rfl, by simp⟩
  · exact ⟨[], by simp [inPoll_eq], by simp [inPoll_eq, State.rebase]⟩
  · exact ⟨[_], rfl, by simp [State.report, State.rebase]⟩
  · exact ⟨[_], rfl, by simp [State.report, State.rebase]⟩

theorem linAddr_rebase (s : State) (p : Bool) (before emitted : List Report) (offset : Word) :
    linAddr (s.rebase p before emitted) offset = linAddr s offset := rfl

theorem resolveSrc_rebase (o : Operand) (s : State) (p : Bool) (before emitted : List Report) :
    ∃ new : List Report, (resolveSrc o s).2.reports = s.reports ++ new ∧
      resolveSrc o (s.rebase p before emitted) =
        ((resolveSrc o s).1, (resolveSrc o s).2.rebase p before (emitted ++ new)) := by
  unfold resolveSrc
  split
  · exact ⟨[], by simp, by simp⟩
  · obtain ⟨n1, h1, e1⟩ := regRead_rebase o.raw s p before emitted
    rw [e1]
    simp only [linAddr_rebase]
    obtain ⟨n2, h2, e2⟩ := memRead_rebase (linAddr (regRead o.raw s).2 (regRead o.raw s).1) (regRead o.raw s).2 p
      before (emitted ++ n1)
    exact ⟨n1 ++ n2, by rw [h2, h1, List.append_assoc], by rw [e2, List.append_assoc]⟩
  · exact memRead_rebase _ s p before emitted
  · exact regRead_rebase _ s p before emitted

theorem resolveDst_rebase (o : Operand) (s : State) (p : Bool) (before emitted : List Report) :
    ∃ new : List Report, (resolveDst o s).2.reports = s.reports ++ new ∧
      resolveDst o (s.rebase p before emitted) =
        ((resolveDst o s).1, (resolveDst o s).2.rebase p before (emitted ++ new)) := by
  unfold resolveDst
  split
  · obtain ⟨n1, h1, e1⟩ := regRead_rebase o.raw s p before emitted
    exact ⟨n1, h1, by rw [e1]; simp only [linAddr_rebase]⟩
  · exact ⟨[], by simp, by simp [linAddr_rebase]⟩
  · exact ⟨[], by simp, by simp⟩

theorem writeDst_rebase (d : Dest) (v : Word) (s : State) (p : Bool) (before emitted : List Report) :
    ∃ new : List Report, (writeDst d v s).reports = s.reports ++ new ∧ (writeDst d v s).pending = s.pending ∧
      writeDst d v (s.rebase p before emitted) = (writeDst d v s).rebase p before (emitted ++ new) := by
  cases d with
  | memory addr =>
    simp only [writeDst]
    rcases memWrite_cases addr v s with ⟨k, q, h, hr, e⟩ | ⟨k, q, h, hr, e⟩ | ⟨h, e⟩ <;> rw [e]
    · exact ⟨[], by simp, rfl, by simp only [memWrite, State.rebase, h, hr, List.append_nil]; rfl⟩
    · exact ⟨[], by simp, rfl, by simp only [memWrite, State.rebase, h, hr, List.append_nil]; rfl⟩
    · exact ⟨[.memOobWrite addr], rfl, rfl, by
        simp only [memWrite, State.rebase, h, State.report, List.append_assoc]⟩
  | register raw =>
    simp only [writeDst, regWrite, rebase_cfg]
    split
    · next r _ => exact ⟨[], by simp, by simp, by cases r <;> simp [State.rebase]⟩
    · rcases stackPush_cases v s with ⟨hb, e⟩ | ⟨hb, e⟩ <;> rw [e] <;>
        rcases stackPush_cases v (s.rebase p before emitted) with ⟨hb', e'⟩ | ⟨hb', e'⟩ <;>
        simp only [State.rebase] at hb hb' e' ⊢ <;> first | omega | rw [e']
      · exact ⟨[], by simp, by simp⟩
      · exact ⟨[_], rfl, by simp⟩
    · exact ⟨[], by simp [outAccept], rfl, by simp [outAccept, State.rebase]⟩
    · exact ⟨[_], rfl, rfl, by simp [State.report, State.rebase]⟩
    · exact ⟨[_], rfl, rfl, by simp [State.report, State.rebase]⟩

end Sys2Proof.Machine
end

