-- ==== Sys2Proof/Tests/Slice0.lean ====
section
/-! SUPPORT. The model's own tests.  Expected results come from spec/95_test_vectors.md (the vector is named in the
test) or, where it has none, from the rule named in the test; words are written out from the encoding of rule R64.  The
`witness_` theorems at the end show, for each statement with hypotheses, inputs that meet them. -/

namespace Sys2Proof.Tests

open Sys2Proof Sys2Proof.Machine

/-- The state of a step that answers one. -/
def nextOf : Host.Outcome State Fault Refusal → Option State
  | .next s => some s
  | .fault _ => none
  | .refused _ => none

/-- One step with the three words placed at EP, and what `f` reads of the state after it. -/
def runWords {α : Type} (op raw0 raw1 : Nat) (s : State) (f : State → α) : Option α :=
  (nextOf (step (s.withFetchWord 48 (op + 0x10000 * raw0 + 0x100000000 * raw1)))).map f

/-- The results of a math instruction: ACC0, ACC1, FLAGS, EP. -/
def mathView (s : State) : Word × Word × Word × Word := (s.acc0, s.acc1, s.flags, s.ep)

/-- The state of the vectors V1 to V19. -/
def vState : State :=
  { State.reset with
    r1 := 0x0100, r2 := 0x0101, sp := 2, stack := [(0, 0x0100), (1, 0x0101)], inQueue := [0x0041]
    mem := [(0x0000, 0x0ABC), (0x0100, 0x1234), (0x0101, 0x5678)] }

/-- The blocks of the vectors M1 to M8. -/
def mBlocks : List Block :=
  [ { name := "A", readOnly := false, init := .fresh 4 },
    { name := "B", readOnly := true, init := .loaded [0xAAAA, 0xBBBB] },
    { name := "C", readOnly := false, init := .fresh 0 },
    { name := "D", readOnly := false, init := .fresh 10 } ]

/-- The state of the vectors M1 to M8. -/
def mState : State := State.resetWith { blocks := mBlocks }

/-- The state of the vectors S1 to S6. -/
def sState (sp : Word) : State := { State.resetWith { blocks := mBlocks, stackSize := 4 } with sp := sp }

/-- The state of the vectors J1 to J12. -/
def jState : State := { State.reset with r3 := 0x0040, acc0 := 0x1111, acc1 := 0x2222 }

/-- What the vectors J1 to J12 say of the state after: EP, FLAGS, and the accumulators. -/
def jumpView (s : State) : Word × Word × Word × Word := (s.ep, s.flags, s.acc0, s.acc1)

/-- R20 with the registers in the reverse order: a map that is a numbering and not the default. -/
def otherMap : RegisterMap :=
  { r0 := 13, r1 := 12, r2 := 11, r3 := 10, acc0 := 9, acc1 := 8, flags := 7, sp := 6, ep := 5, mbe := 4, intc := 3,
    stack := 2, input := 1, output := 0 }

/-- R69 with other values for jumps, SUB, JGE, MOVE and INT. -/
def otherOpcodes : OpcodeMap := { jumpHigh := 0b100001, sub := 11, div := 2, jge := 5, move := 0x010, int := 0x0FF }

/-- The configuration with both other tables. -/
def otherConfig : Config := { Config.standard with regMap := otherMap, opcodes := otherOpcodes }

/-! ### Well-formedness: an ill-formed term for each check -/

theorem test_wf_refuses_math_opcode : (Instr.unknown 0x00F (.direct 0) (.direct 0)).wf .standard = false := by decide
theorem test_wf_refuses_jump_opcode : (Instr.unknown 0x01F (.direct 0) (.direct 0)).wf .standard = false := by decide
theorem test_wf_refuses_move_opcode : (Instr.unknown 0x020 (.direct 0) (.direct 0)).wf .standard = false := by decide
theorem test_wf_refuses_interrupt_opcode :
    (Instr.unknown 0x040 (.direct 0) (.direct 0)).wf .standard = false := by decide
/-- A reserved operation does not carry a kind that names one, nor the kind of another row. -/
theorem test_wf_refuses_reserved_alu_kinds :
    (Instr.mathUnk11 (.direct 0) (.direct 0)).wf otherOpcodes = false ∧
    (Instr.mathUnk12 10 (.direct 0) (.direct 0)).wf .standard = false ∧
    (Instr.mathUnk12 11 (.direct 0) (.direct 0)).wf .standard = false := by decide
/-- A reserved comparison does not carry a kind that names one, nor the kind of another row. -/
theorem test_wf_refuses_reserved_comparison_kinds :
    (Instr.jumpUnk5 (.direct 0) (.direct 0)).wf otherOpcodes = false ∧
    (Instr.jumpUnk6 8 (.direct 0) (.direct 0)).wf .standard = false ∧
    (Instr.jumpUnk8 4 (.direct 0) (.direct 0)).wf .standard = false ∧
    (Instr.jumpUnk8 7 (.direct 0) (.direct 0)).wf .standard = false := by decide
/-- Without the full ranges no reserved operation has an encoding (D4's alternative). -/
theorem test_wf_refuses_reserved_without_ranges :
    (Instr.mathUnk12 12 (.direct 0) (.direct 0)).wf { fullRanges := false } = false ∧
    (Instr.jumpUnk8 12 (.direct 0) (.direct 0)).wf { fullRanges := false } = false ∧
    (Instr.unknown 0x00C (.direct 0) (.direct 0)).wf { fullRanges := false } = true := by decide
theorem test_wf_accepts_unknown_opcodes :
    [0x021, 0x03F, 0x041, 0x3FF].all (fun n => (Instr.unknown n (.direct 0) (.direct 0)).wf .standard) = true := by
  decide
/-- The tables with the spec's defaults are numberings, and so are the other two. -/
theorem test_valid_tables :
    RegisterMap.standard.valid ∧ OpcodeMap.standard.valid ∧ otherMap.valid ∧ otherOpcodes.valid ∧
    Config.inRange Config.standard ∧ Config.inRange otherConfig := by decide
/-- A register address, a kind, a class or an opcode given twice is no numbering. -/
theorem test_invalid_tables :
    ¬ RegisterMap.valid { output := 12 } ∧ ¬ OpcodeMap.valid { sub := 1 } ∧ ¬ OpcodeMap.valid { jge := 0 } := by decide
theorem test_invalid_opcodes :
    ¬ OpcodeMap.valid { jumpHigh := 0 } ∧ ¬ OpcodeMap.valid { move := 0x040 } ∧
    ¬ OpcodeMap.valid { int := 0x00F } := by decide
/-- R69: ADD is 0x001, the one value that the source gives. -/
theorem test_add_opcode_in_range :
    ¬ Config.inRange (State.resetWith { Config.standard with opcodes := { mathHigh := 7 } }).cfg := by decide

/-! ### Decoding, from words written out by hand

Each opcode word is written as IMM0 IMM1 PTR0 PTR1 MEM0 MEM1, then OPC (rule R64). -/

theorem test_decode_noop : decode .standard 0b000001_0000000000 7 9 = .noop (.direct 7) (.memoryAt 9) := by decide
theorem test_decode_add : decode .standard 0b000100_0000000001 2 1 = .add (.direct 2) (.pointerAt 1) := by decide
theorem test_decode_sub : decode .standard 0b001000_0000000010 1 2 = .sub (.pointerAt 1) (.direct 2) := by decide
theorem test_decode_mul : decode .standard 0b000010_0000000011 1 2 = .mul (.memoryAt 1) (.direct 2) := by decide
theorem test_decode_div : decode .standard 0b110000_0000000100 7 2 = .div (.immediate 7) (.immediate 2) := by decide
theorem test_decode_mod : decode .standard 0b100000_0000000101 7 2 = .mod (.immediate 7) (.direct 2) := by decide
theorem test_decode_and : decode .standard 0b010000_0000000110 7 2 = .and (.direct 7) (.immediate 2) := by decide
theorem test_decode_or : decode .standard 0b001100_0000000111 1 2 = .or (.pointerAt 1) (.pointerAt 2) := by decide
theorem test_decode_xor : decode .standard 0b000011_0000001000 1 2 = .xor (.memoryAt 1) (.memoryAt 2) := by decide
theorem test_decode_shl : decode .standard 0b000000_0000001001 1 2 = .shl (.direct 1) (.direct 2) := by decide
theorem test_decode_shr : decode .standard 0b010000_0000001010 1 4 = .shr (.direct 1) (.immediate 4) := by decide
theorem test_decode_mathUnk11 :
    decode .standard 0b000000_0000001011 1 2 = .mathUnk11 (.direct 1) (.direct 2) := by decide
theorem test_decode_mathUnk12 :
    decode .standard 0b000000_0000001110 1 2 = .mathUnk12 14 (.direct 1) (.direct 2) := by decide
theorem test_decode_jeq : decode .standard 0b110000_0000010000 4 4 = .jeq (.immediate 4) (.immediate 4) := by decide
theorem test_decode_jlt : decode .standard 0b010000_0000010001 0 3 = .jlt (.direct 0) (.immediate 3) := by decide
theorem test_decode_jle : decode .standard 0b000000_0000010010 0 3 = .jle (.direct 0) (.direct 3) := by decide
theorem test_decode_jgt : decode .standard 0b001000_0000010011 0 3 = .jgt (.pointerAt 0) (.direct 3) := by decide
theorem test_decode_jge : decode .standard 0b000001_0000010100 0 3 = .jge (.direct 0) (.memoryAt 3) := by decide
theorem test_decode_jumpUnk5 :
    decode .standard 0b110000_0000010101 1 1 = .jumpUnk5 (.immediate 1) (.immediate 1) := by decide
theorem test_decode_jumpUnk6 :
    decode .standard 0b000000_0000010111 1 2 = .jumpUnk6 7 (.direct 1) (.direct 2) := by decide
theorem test_decode_jumpUnk8 :
    decode .standard 0b000000_0000011101 1 2 = .jumpUnk8 13 (.direct 1) (.direct 2) := by decide
theorem test_decode_move :
    decode .standard 0b100001_0000100000 0x7777 5 = .move (.immediate 0x7777) (.memoryAt 5) := by decide
theorem test_decode_int : decode .standard 0b100000_0001000000 7 0 = .int (.immediate 7) (.direct 0) := by decide
theorem test_decode_unknown :
    decode .standard 0b111111_0000111111 7 8 = .unknown 0x03F ⟨true, true, true, 7⟩ ⟨true, true, true, 8⟩ := by decide

/-- A list of fewer than three words is refused, by name (R63). -/
theorem test_decode_truncated : (decodeWords .standard [0x0001, 0x0002]).toOption = none := by decide

/-- R69 with other opcode values: the same words are other instructions. -/
theorem test_decode_other_opcodes :
    decode otherOpcodes 0x000B 1 2 = .sub (.direct 1) (.direct 2) ∧
    decode otherOpcodes 0x0004 1 2 = .mathUnk12 4 (.direct 1) (.direct 2) ∧
    decode otherOpcodes 0x0215 1 2 = .jge (.direct 1) (.direct 2) ∧
    decode otherOpcodes 0x0010 1 2 = .move (.direct 1) (.direct 2) ∧
    decode otherOpcodes 0x0014 1 2 = .unknown 0x014 (.direct 1) (.direct 2) ∧
    decode { fullRanges := false } 0x000C 1 2 = .unknown 0x00C (.direct 1) (.direct 2) := by decide

/-- The words of `tableWords` are the instruction's in order, the first word lowest. -/
theorem test_decodeTableWord :
    decodeTableWord 48 0x0001_0002_1001 = some (.add (.direct 2) (.pointerAt 1)) ∧
    decodeTableWord 16 0x4011 = some (.jlt (.direct 0) (.immediate 0)) := by decide

/-- R69: no two rows of the table match the same opcode word. -/
theorem test_rows_disjoint :
    opcodeRows.Pairwise (fun r q => r.pattern &&& q.mask &&& r.mask ≠ q.pattern &&& r.mask &&& q.mask) := by decide

/-! ### One step of each instruction -/

/-- A0. -/
theorem test_noop : runWords 0xC000 5 3 State.reset mathView = some (5, 3, 0x6D, 0x0013) := by decide
/-- H5. -/
theorem test_noop_zero : runWords 0 0 0 State.reset mathView = some (0, 0, 0xC0, 0x0013) := by decide
/-- W7a, A1. -/
theorem test_add : runWords 0xC001 5 3 State.reset mathView = some (8, 0, 0x68, 0x0013) := by decide
/-- W7b: the word as the source prints it, param1 direct, with r3 = 3. -/
theorem test_add_direct : runWords 0x8001 5 3 { State.reset with r3 := 3 } mathView = some (8, 0, 0x68, 0x0013) := by
  decide
/-- A6. -/
theorem test_sub : runWords 0xC002 0x8000 1 State.reset mathView = some (0x7FFF, 0, 0x28, 0x0013) := by decide
/-- H2: the first pop is param0's. -/
theorem test_sub_pops :
    runWords 0x0002 11 11 { State.reset with sp := 2, stack := [(0, 5), (1, 9)] } (fun s => (s.acc0, s.flags, s.sp)) =
      some (4, 0x68, 0) := by decide
/-- A7, A9. -/
theorem test_mul :
    runWords 0xC003 0x012C 0x012C State.reset mathView = some (0x5F90, 0, 0xE8, 0x0013) ∧
    runWords 0xC003 0x4000 4 State.reset mathView = some (0, 0, 0x40, 0x0013) := by decide
/-- A11, A12, A13. -/
theorem test_div :
    runWords 0xC004 0xFFF9 2 State.reset mathView = some (0xFFFD, 0xFFFF, 0x36, 0x0013) ∧
    runWords 0xC004 7 0xFFFE State.reset mathView = some (0xFFFD, 1, 0x75, 0x0013) ∧
    runWords 0xC004 0xFFF9 0xFFFE State.reset mathView = some (3, 0xFFFF, 0x2E, 0x0013) := by decide
/-- A15, A16. -/
theorem test_div_corners :
    runWords 0xC004 0 0 State.reset mathView = some (0xFFFF, 0, 0xF0, 0x0013) ∧
    runWords 0xC004 0x8000 0xFFFF State.reset mathView = some (0x8000, 0, 0x30, 0x0013) := by decide
/-- A18. -/
theorem test_mod : runWords 0xC005 0xFFF9 2 State.reset mathView = some (0xFFFF, 0xFFFD, 0x36, 0x0013) := by decide
/-- A19, A20. -/
theorem test_mod_corners :
    runWords 0xC005 5 0 State.reset mathView = some (0, 0xFFFF, 0x46, 0x0013) ∧
    runWords 0xC005 0x8000 0xFFFF State.reset mathView = some (0, 0x8000, 0x06, 0x0013) := by decide
/-- A21. -/
theorem test_and : runWords 0xC006 0x0F0F 0x00FF State.reset mathView = some (0x000F, 0, 0x68, 0x0013) := by decide
/-- A22. -/
theorem test_or : runWords 0xC007 0x0F00 0x00F0 State.reset mathView = some (0x0FF0, 0, 0x68, 0x0013) := by decide
/-- A24. -/
theorem test_xor : runWords 0xC008 0xFFFF 1 State.reset mathView = some (0xFFFE, 0, 0x30, 0x0013) := by decide
/-- A26, A27, A28, A29. -/
theorem test_shl :
    runWords 0xC009 1 0x000F State.reset mathView = some (0x8000, 0, 0x30, 0x0013) ∧
    runWords 0xC009 1 0x0010 State.reset mathView = some (0, 0, 0x00, 0x0013) ∧
    runWords 0xC009 1 0x0020 State.reset mathView = some (1, 0, 0x28, 0x0013) ∧
    runWords 0xC009 1 0xFFFF State.reset mathView = some (0, 0, 0x40, 0x0013) := by decide
/-- A30, A32. -/
theorem test_shr :
    runWords 0xC00A 0x8000 1 State.reset mathView = some (0xC000, 0, 0x30, 0x0013) ∧
    runWords 0xC00A 0x8000 0x0010 State.reset mathView = some (0xFFFF, 0, 0x30, 0x0013) := by decide
/-- A33: the logical shift. -/
theorem test_shr_logical :
    runWords 0xC00A 0x8000 1 (State.resetWith { Config.standard with shrKind := .logical }) mathView =
      some (0x4000, 0, 0x28, 0x0013) := by decide
/-- A34, kind 11. -/
theorem test_mathUnk11 :
    runWords 0xC00B 5 3 State.reset (fun s => (mathView s, s.reports)) =
      some ((5, 3, 0x6D, 0x0013), [.unknownAluOp 11]) := by decide
/-- A34, kind 15. -/
theorem test_mathUnk12 :
    runWords 0xC00F 5 3 State.reset (fun s => (mathView s, s.reports)) =
      some ((5, 3, 0x6D, 0x0013), [.unknownAluOp 15]) := by decide
/-- J1, J2. -/
theorem test_jeq :
    runWords 0xC010 4 4 jState jumpView = some (0x0040, 0xED, 0x1111, 0x2222) ∧
    runWords 0xC010 4 5 jState jumpView = some (0x0013, 0x2D, 0x1111, 0x2222) := by decide
/-- J4, J5. -/
theorem test_jlt :
    runWords 0xC011 5 2 jState jumpView = some (0x0013, 0x6D, 0x1111, 0x2222) ∧
    runWords 0xC011 0x8000 0x7FFF jState jumpView = some (0x0040, 0x35, 0x1111, 0x2222) := by decide
/-- J6, J7. -/
theorem test_jle :
    runWords 0xC012 5 5 jState jumpView = some (0x0040, 0xED, 0x1111, 0x2222) ∧
    runWords 0xC012 0xFFFF 0 jState jumpView = some (0x0040, 0x30, 0x1111, 0x2222) := by decide
/-- J8, J9. -/
theorem test_jgt :
    runWords 0xC013 0xFFFF 1 jState jumpView = some (0x0013, 0x35, 0x1111, 0x2222) ∧
    runWords 0xC013 0x7FFF 0x8000 jState jumpView = some (0x0040, 0x6E, 0x1111, 0x2222) := by decide
/-- J10, J11. -/
theorem test_jge :
    runWords 0xC014 0 0 jState jumpView = some (0x0040, 0xC0, 0x1111, 0x2222) ∧
    runWords 0xC014 1 2 jState jumpView = some (0x0013, 0x2D, 0x1111, 0x2222) := by decide
/-- J12. -/
theorem test_jumpUnk5 :
    runWords 0xC015 1 1 jState (fun s => (jumpView s, s.reports)) =
      some ((0x0013, 0xED, 0x1111, 0x2222), [.unknownComparison 5]) := by decide
/-- R114, kind 7. -/
theorem test_jumpUnk6 :
    runWords 0xC017 1 1 jState (fun s => (jumpView s, s.reports)) =
      some ((0x0013, 0xED, 0x1111, 0x2222), [.unknownComparison 7]) := by decide
/-- R114, kind 13. -/
theorem test_jumpUnk8 :
    runWords 0xC01D 1 1 jState (fun s => (jumpView s, s.reports)) =
      some ((0x0013, 0xED, 0x1111, 0x2222), [.unknownComparison 13]) := by decide
/-- F6, F5, MV7, MV6, MV8: MOVE to and from registers and the output port. -/
theorem test_move_registers :
    runWords 0x8020 0x0040 8 State.reset (·.ep) = some 0x0040 ∧
    runWords 0x0020 8 0 State.reset (fun s => (s.r0, s.ep)) = some (0x0013, 0x0013) ∧
    runWords 0x8020 0x00FF 6 State.reset (·.flags) = some 0x00FF ∧
    runWords 0x8020 0xFFFF 13 State.reset (·.outAccepted) = some [0xFFFF] ∧
    runWords 0x8020 5 20 State.reset (·.reports) = some [.regInvalidWrite 20] := by decide
/-- MV1, MV2, MV4, MV5: MOVE to and from memory and the stack. -/
theorem test_move_memory :
    runWords 0x9020 0x1234 1 { State.reset with r1 := 0x0100 } (·.wordAt 0x0100) = some 0x1234 ∧
    runWords 0x0820 0x0100 0 vState (·.r0) = some 0x1234 ∧
    runWords 0x0020 7 11 { State.reset with sp := 3 } (fun s => (s.stackAt 3, s.sp)) = some (3, 4) ∧
    runWords 0x0020 11 7 { State.reset with sp := 1, stack := [(0, 0x0050)] } (·.sp) = some 0x0050 := by decide
/-- I1, its first step. -/
theorem test_int :
    runWords 0x8040 7 0 State.reset (fun s => (s.intc, s.pending, s.ep, s.flags)) = some (7, true, 0x0013, 0) := by
  decide
/-- I4: the code is popped. -/
theorem test_int_stack :
    runWords 0x0040 11 0 { State.reset with sp := 1, stack := [(0, 0x0033)] }
      (fun s => (s.intc, s.pending, s.sp)) = some (0x0033, true, 0) := by decide
/-- I1, its second step. -/
theorem test_service :
    (nextOf (step { State.reset with pending := true, ep := 0x0013, intc := 7 })).map
      (fun s => (s.pending, s.ep, s.acc0, s.intc)) = some (false, 0, 0, 7) := by decide
/-- R20, R69: MOVE #7, r3 and then SUB r3, #2 under the other tables, where r3 is address 10 and SUB is kind 11. -/
theorem test_other_tables :
    runWords 0x8010 7 10 (State.resetWith otherConfig) (·.r3) = some 7 ∧
    runWords 0x400B 10 2 { State.resetWith otherConfig with r3 := 7 } mathView = some (5, 0, 0x68, 0x0013) ∧
    runWords 0x8010 0x41 0 (State.resetWith otherConfig) (·.outAccepted) = some [0x41] ∧
    runWords 0xC220 0 0 (State.resetWith otherConfig) (·.reports) = some [.unknownOpcode 0x220] := by decide
/-- F4. -/
theorem test_unknown :
    runWords 0x03FF 11 11 { State.reset with sp := 5 } (fun s => (s.sp, s.ep, s.reports)) =
      some (5, 0x0013, [.unknownOpcode 0x3FF]) := by decide

/-! ### Fetch, operands, memory and stack -/

/-- F3: a fetch beyond the blocks reads NOOP, with three reports. -/
theorem test_fetch_beyond :
    (nextOf (step { State.reset with ep := 0x0300 })).map (fun s => (mathView s, s.reports)) =
      some ((0, 0, 0xC0, 0x0303), [.memOobRead 0x300, .memOobRead 0x301, .memOobRead 0x302]) := by decide
/-- F2: EP wraps. -/
theorem test_fetch_wraps : runWords 0xC001 5 3 { State.reset with ep := 0xFFFE } mathView = some (8, 0, 0x68, 1) := by
  decide
/-- V1 to V6. -/
theorem test_source_modes :
    (resolveSrc ⟨true, false, false, 1⟩ vState).1 = 0x0001 ∧ (resolveSrc ⟨true, true, true, 1⟩ vState).1 = 0x0001 ∧
    (resolveSrc (.direct 1) vState).1 = 0x0100 ∧ (resolveSrc (.memoryAt 0x0100) vState).1 = 0x1234 ∧
    (resolveSrc (.pointerAt 1) vState).1 = 0x1234 ∧ (resolveSrc ⟨false, true, true, 2⟩ vState).1 = 0x5678 := by decide
/-- V7 to V10. -/
theorem test_source_side_effects :
    ((resolveSrc (.pointerAt 11) vState).1, (resolveSrc (.pointerAt 11) vState).2.sp) = (0x5678, 1) ∧
    ((resolveSrc (.direct 12) vState).1, (resolveSrc (.direct 12) vState).2.inQueue) = (0x0041, []) ∧
    ((resolveSrc (.direct 13) vState).1, (resolveSrc (.direct 13) vState).2.reports) = (0, [.regInvalidRead 13]) ∧
    ((resolveSrc (.pointerAt 14) vState).1, (resolveSrc (.pointerAt 14) vState).2.reports) =
      (0x0ABC, [.regInvalidRead 14]) := by decide
/-- V12 to V16, V18, V19. -/
theorem test_destinations :
    runWords 0x8420 0xEE 0x0150 vState (·.wordAt 0x0150) = some 0x00EE ∧
    runWords 0x9020 0xEE 1 vState (·.wordAt 0x0100) = some 0x00EE ∧
    runWords 0x9020 0xEE 11 vState (fun s => (s.wordAt 0x0101, s.sp)) = some (0x00EE, 1) ∧
    runWords 0xC020 0xEE 3 vState (·.r3) = some 0x00EE ∧
    runWords 0x8020 0xEE 11 vState (fun s => (s.stackAt 2, s.sp)) = some (0x00EE, 3) ∧
    runWords 0x8020 0xEE 12 vState (·.reports) = some [.regInvalidWrite 12] ∧
    runWords 0x8420 0xEE 5 { vState with mbe := 1 } (·.reports) = some [.memOobWrite 0x10005] := by decide
/-- M1 to M4. -/
theorem test_resolve :
    resolve mBlocks 0 = some (0, 0) ∧ resolve mBlocks 3 = some (0, 3) ∧ resolve mBlocks 4 = some (1, 0) ∧
    resolve mBlocks 6 = some (3, 0) ∧ resolve mBlocks 15 = some (3, 9) ∧ resolve mBlocks 16 = none := by decide
/-- M5 to M8. -/
theorem test_memory :
    memWrite 4 0x1234 mState = mState ∧ (memRead 4 mState).1 = 0xAAAA ∧
    (memRead 7 (memWrite 7 0x5555 mState)).1 = 0x5555 ∧ readBack (memWrite 7 0x5555 mState) 3 =
      [0, 0x5555, 0, 0, 0, 0, 0, 0, 0, 0] ∧
    memRead 16 mState = (0, mState.report (.memOobRead 16)) ∧
    memWrite 100 1 mState = mState.report (.memOobWrite 100) := by decide
/-- R41: signed, the bank 0xFFFF and the offset 1 name a negative address, which no block covers (D8). -/
theorem test_addr_signed :
    linAddr { State.resetWith { blocks := mBlocks, addrSigned := true } with mbe := 0xFFFF } 1 = -65535 ∧
    linAddr { State.resetWith { blocks := mBlocks } with mbe := 0xFFFF } 1 = 0xFFFF0001 := by decide
/-- R41: signed, the bank 1 and the offset 0xFFFF name the address 65535, the rule's sum (log entry 17). -/
theorem test_addr_signed_sum :
    linAddr { State.resetWith { blocks := mBlocks, addrSigned := true } with mbe := 1 } 0xFFFF = 65535 := by decide
/-- S1 to S5. -/
theorem test_stack :
    ((stackPush 0x11 (sState 0)).stackAt 0, (stackPush 0x11 (sState 0)).sp) = (0x11, 1) ∧
    (stackPop (stackPush 0x11 (sState 0))).1 = 0x11 ∧
    (stackPop (sState 0)) = (0, (sState 0xFFFF).report (.stackOobRead 0xFFFF)) ∧
    stackPush 0x22 (sState 4) = { (sState 4).report (.stackOobWrite 4) with sp := 5 } ∧
    (stackPop (sState 5)) = (0, (sState 4).report (.stackOobRead 4)) := by decide
/-- S6. -/
theorem test_stack_round_trip :
    (popMany 3 (pushAll [1, 2, 3] (sState 1))).1 = [3, 2, 1] ∧
    (popMany 3 (pushAll [1, 2, 3] (sState 1))).2.sp = 1 := by decide

/-! ### Inputs that meet the hypotheses of the statements -/

/-- A state that takes bank and offset as signed, at a negative linear address. -/
def negState : State := { State.resetWith { blocks := mBlocks, addrSigned := true } with mbe := 0x8000 }

/-- A state at a SPIN at its reset EP. -/
def spinState : State := State.reset.withFetchWord 48 0x0008_0010_8020

theorem witness_DecodeReadsWhatEncodeWrites :
    (OpcodeMap.standard.valid ∧ (Instr.add (.immediate 0xFFFF) (.pointerAt 11)).wf .standard = true ∧
      (Instr.unknown 0x021 (.direct 0) (.direct 0)).wf .standard = true ∧
      (Instr.jumpUnk8 15 (.direct 0) (.direct 0)).wf .standard = true) ∧
    (otherOpcodes.valid ∧ (Instr.mathUnk12 15 (.direct 0) (.direct 0)).wf otherOpcodes = true ∧
      (Instr.unknown 0x3FF (.direct 0) (.direct 0)).wf otherOpcodes = true) := by decide

theorem witness_HandlerClassOfTheOpcode :
    (OpcodeMap.standard.valid ∧ OpcodeMap.standard.fullRanges = true) ∧
    (otherOpcodes.valid ∧ otherOpcodes.fullRanges = true) := by decide

theorem witness_HandlersRunTheAluOnTheOpcodeBits :
    State.reset.cfg.opcodes = .standard ∧
    (decode State.reset.cfg.opcodes 0x000F 1 2).cls = .math ∧ (decode State.reset.cfg.opcodes 0x001F 1 2).cls = .jump ∧
    (decode otherOpcodes 0x000F 1 2).cls = .math ∧ (decode otherOpcodes 0x021F 1 2).cls = .jump := by decide

theorem witness_SourceOperandModes :
    (Operand.immediate 5).imm = true ∧
    ((Operand.pointerAt 11).imm = false ∧ (Operand.pointerAt 11).ptr = true ∧
      regTarget vState.cfg.regMap (Operand.pointerAt 11).raw = some .stack) ∧
    ((Operand.pointerAt 12).imm = false ∧ (Operand.pointerAt 12).ptr = true ∧
      regTarget vState.cfg.regMap (Operand.pointerAt 12).raw = some .input) ∧
    (regTarget vState.cfg.regMap (Operand.pointerAt 13).raw = some .output ∧
      regTarget vState.cfg.regMap (Operand.pointerAt 14).raw = none) ∧
    ((Operand.memoryAt 9).imm = false ∧ (Operand.memoryAt 9).ptr = false ∧ (Operand.memoryAt 9).mem = true) ∧
    ((Operand.direct 13).imm = false ∧ (Operand.direct 13).ptr = false ∧ (Operand.direct 13).mem = false) ∧
    (regTarget vState.cfg.regMap (Operand.pointerAt 1).raw = some (.cell .r1) ∧
      vState.r1 = 0x0100 ∧ vState.mbe = 0 ∧ vState.wordAt 0x0100 = 0x1234) := by decide

theorem witness_RegisterAddresses :
    (State.reset.cfg.regMap.valid ∧ (14 : Word) ∉ State.reset.cfg.regMap.addresses) ∧
    ((State.resetWith otherConfig).cfg.regMap.valid ∧ (State.resetWith otherConfig).cfg.regMap ≠ .standard) ∧
    14 ≤ u16 (14 : Word) ∧ 14 ≤ u16 (0xFFFF : Word) := by decide

theorem witness_RegisterCellsHoldWords : Reg.r0 ≠ Reg.intc := by decide

theorem witness_MemoryReadGivesTheBlocksWord :
    resolve mState.cfg.blocks 3 = some (0, 3) ∧ resolve mState.cfg.blocks 4 = some (1, 0) ∧
    resolve mState.cfg.blocks 15 = some (3, 9) ∧ resolve mState.cfg.blocks 16 = none := by decide

theorem witness_MemoryWriteSetsTheBlocksWord :
    Memory.wf mState ∧
    (resolve mState.cfg.blocks 15 = some (3, 9) ∧ blockReadOnly mState.cfg.blocks 3 = false) ∧
    (resolve mState.cfg.blocks 5 = some (1, 1) ∧ blockReadOnly mState.cfg.blocks 1 = true) ∧
    resolve mState.cfg.blocks 16 = none := by decide

theorem witness_StoreThenLoadGivesTheWord :
    Memory.wf mState ∧ regTarget mState.cfg.regMap 0 = some (.cell .r0) ∧
    exec (.move (.immediate 7) (.memoryAt 15)) mState = .next (memWrite 15 7 mState) :=
  ⟨by decide, by decide, rfl⟩

theorem witness_AccessesBeyondTheBlocksDegrade :
    totalSize mState.cfg.blocks ≤ 16 ∧ totalSize mState.cfg.blocks ≤ 0x10000 := by decide

theorem witness_ReadOnlyBlocksKeepTheirContent :
    (resolve mState.cfg.blocks 4 = some (1, 0) ∧ blockReadOnly mState.cfg.blocks 1 = true ∧ mState.Inv) ∧
    ∃ t, runTransactions [.raiseInterrupt 3, .step, .step] mState = .next t :=
  ⟨by decide, _, rfl⟩

theorem witness_LinearAddressOfBankAndOffset :
    mState.cfg.addrSigned = false ∧ negState.cfg.addrSigned = true ∧ linAddr negState 5 < 0 := by decide

theorem witness_StackAccessRules :
    (Stack.wf (sState 3) ∧ u16 (sState 3).sp < (sState 3).cfg.stackSize) ∧
    (Stack.wf (sState 4) ∧ (sState 4).cfg.stackSize ≤ u16 (sState 4).sp) ∧
    (u16 ((sState 4).sp - 1) < (sState 4).cfg.stackSize) ∧
    (Stack.wf (sState 0) ∧ (sState 0).cfg.stackSize ≤ u16 ((sState 0).sp - 1)) := by decide

theorem witness_StackRoundTrip :
    (sState 1).cfg.stackSize ≤ 32768 ∧ Stack.wf (sState 1) ∧
    ∀ k < [(1 : Word), 2, 3].length, u16 ((sState 1).sp + BitVec.ofNat 16 k) < (sState 1).cfg.stackSize := by decide

theorem witness_InputPortIsAQueue :
    regTarget State.reset.cfg.regMap 12 = some .input ∧ State.reset.inQueue = [] ∧ vState.inQueue ≠ [] := by decide

theorem witness_OutputPortKeepsOrder :
    regTarget State.reset.cfg.regMap 13 = some .output ∧ (0xFFFF : Word) ∉ [(0 : Word), 0x41, 0xFFFE] := by decide

theorem witness_PortTrafficIsOrdered :
    (nextOf (step (vState.withFetchWord 48 0x000C_000D_0020))).isSome = true := by decide

theorem witness_FlagsByteBits : (alu Config.standard 0x1F 5 3).isComparison = true := by decide

theorem witness_PassThroughOperations :
    State.reset.cfg.noopSecondary = .operandB ∧
    (State.resetWith { blocks := [], noopSecondary := .zero }).cfg.noopSecondary = .zero := by decide

theorem witness_DivResult :
    (resolveSrc (.immediate 0) (resolveSrc (.immediate 0x8000) vState).2).1 = 0 ∧
    (resolveSrc (.immediate 0xFFFF) (resolveSrc (.immediate 0x8000) vState).2).1 ≠ 0 := by decide

theorem witness_ModResult :
    (resolveSrc (.direct 0) (resolveSrc (.direct 1) vState).2).1 = 0 ∧
    (resolveSrc (.direct 2) (resolveSrc (.direct 1) vState).2).1 ≠ 0 := by decide

theorem witness_MoveToARegister :
    dstIs .standard (.direct 0) (.cell .r0) ∧ dstIs .standard ⟨true, false, false, 10⟩ (.cell .intc) := by decide

theorem witness_MoveToTheStackOrAPort :
    (dstIs .standard (.direct 11) .stack ∧ Stack.wf (sState 3) ∧ u16 (sState 3).sp < (sState 3).cfg.stackSize ∧
      (sState 4).cfg.stackSize ≤ u16 (sState 4).sp) ∧
    dstIs .standard (.direct 13) .output ∧
    (dstMode (.direct 12) = .direct ∧ regTarget .standard (Operand.direct 12).raw = some .input) ∧
    (dstMode (.direct 14) = .direct ∧ regTarget .standard (Operand.direct 14).raw = none) := by decide

theorem witness_MoveToMemory :
    Memory.wf mState ∧ dstMode (.memoryAt 15) = .memory ∧ dstMode (.pointerAt 1) = .pointer ∧
    writableAt mState.cfg.blocks 15 = true ∧ writableAt mState.cfg.blocks 4 = false := by decide

theorem witness_MoveCornerCases :
    (Stack.wf vState ∧ srcMode (.direct 1) = .direct ∧
      regTarget vState.cfg.regMap (Operand.direct 1).raw = some (.cell .r1)) ∧
    vState.cfg.regMap.valid ∧
    u16 (vState.sp - 1) < vState.cfg.stackSize ∧ u16 (vState.sp) < vState.cfg.stackSize ∧
    u16 ((sState 4).sp - 1) < (sState 4).cfg.stackSize ∧ u16 (sState 3).sp < (sState 3).cfg.stackSize := by decide

theorem witness_ServiceTakesThePendingInterrupt : (raiseInterrupt 0x0099 State.reset).pending = true := by decide

theorem witness_InterruptIsServicedNextStep :
    (State.reset.withFetchWord 48 0x0000_000B_0040).pending = false ∧
    (fetch (State.reset.withFetchWord 48 0x0000_000B_0040)).1.instr .standard =
      .int (.direct 11) (.direct 0) := by decide

theorem witness_MathFrame :
    (Instr.sub (.direct 11) (.direct 11)).cls = .math ∧
    (nextOf (exec (.sub (.direct 11) (.direct 11)) vState)).isSome = true := by decide

theorem witness_JumpFrame :
    (Instr.jeq (.direct 12) (.pointerAt 11)).cls = .jump ∧
    (nextOf (exec (.jeq (.direct 12) (.pointerAt 11)) vState)).isSome = true := by decide

/-- A form for each clause: to a register, to SP, to memory, to the stack, to the output port. -/
theorem witness_MoveFrame :
    (∀ dst ∈ [Operand.direct 0, .direct 7, .memoryAt 0x0150, .pointerAt 11, .direct 11, .direct 13],
      (nextOf (exec (.move (.direct 11) dst) vState)).isSome = true) ∧
    (resolveDst (.pointerAt 11) (resolveSrc (.direct 11) vState).2).1 = .memory 0x0100 ∧
    dstIs .standard (.direct 11) .stack ∧ ¬ dstIs .standard (.direct 0) (.cell .sp) ∧ dstMode (.direct 0) = .direct ∧
    ¬ dstIs .standard (.direct 0) .stack ∧ ¬ dstIs .standard (.direct 0) .output ∧
    ¬ dstIs .standard (.direct 0) (.cell .r1) := by decide

theorem witness_IntAndUnknownFrame :
    (nextOf (exec (.int (.direct 11) (.direct 11)) vState)).isSome = true ∧
    (nextOf (exec (.unknown 0x3FF (.direct 11) (.direct 11)) vState)).isSome = true := by decide

theorem witness_RegistersChangeOnlyByTheirWriters :
    (nextOf (exec (.move (.direct 1) (.direct 0)) vState)).isSome = true ∧
    ¬ movesTo .standard (.move (.direct 1) (.direct 0)) (.cell .sp) ∧
    implicitWrite (.move (.direct 1) (.direct 0)) .sp = false ∧
    ¬ readsAddress .standard (.move (.direct 1) (.direct 0)) .stack ∧
    ¬ movesTo .standard (.move (.direct 1) (.direct 0)) .stack := by
  refine ⟨by decide, ?_, by decide, by decide, ?_⟩ <;>
    (rintro ⟨src, dst, h, hd⟩; cases h; exact absurd hd (by decide))

theorem witness_UnnamedRegistersHaveNoInfluence :
    ((Reg.flags ≠ .r3 ∧ Reg.flags ≠ .sp ∧ Reg.flags ≠ .ep ∧ Reg.flags ≠ .mbe) ∧
      ¬ readsAddress .standard (.jeq (.direct 1) (.direct 2)) (.cell .flags) ∧
      (nextOf (exec (.jeq (.direct 1) (.direct 2)) vState)).isSome = true ∧
      implicitWrite (.jeq (.direct 1) (.direct 2)) .flags = true) ∧
    (¬ readsAddress .standard (.jeq (.direct 1) (.direct 2)) (.cell .intc) ∧
      implicitWrite (.jeq (.direct 1) (.direct 2)) .intc = false ∧
      ¬ movesTo .standard (.jeq (.direct 1) (.direct 2)) (.cell .intc)) := by
  refine ⟨by decide, by decide, by decide, ?_⟩
  rintro ⟨src, dst, h, -⟩
  cases h

theorem witness_PendingFlagWriters :
    (nextOf (exec (.int (.immediate 7) (.direct 0)) vState)).isSome = true ∧
    (nextOf (step vState)).isSome = true ∧
    (nextOf (transact (.raiseInterrupt 1) vState)).isSome = true := by decide

theorem witness_ReportsHaveNoEffect : (nextOf (exec (.add (.direct 13) (.pointerAt 14)) vState)).isSome = true := by
  decide

theorem witness_NextInstructionAddress :
    (jState.withFetchWord 48 0x0004_0004_C010).pending = false ∧
    (nextOf (step (jState.withFetchWord 48 0x0004_0004_C010))).isSome = true ∧
    ((fetch (jState.withFetchWord 48 0x0004_0004_C010)).1.instr .standard).cls = .jump ∧
    vState.pending = false ∧ (nextOf (step vState)).isSome = true ∧ ((fetch vState).1.instr .standard).cls = .math ∧
    ¬ movesTo .standard ((fetch vState).1.instr .standard) (.cell .ep) := by
  refine ⟨by decide, by decide, by decide, by decide, by decide, by decide, ?_⟩
  rintro ⟨src, dst, h, -⟩
  have hn : (fetch vState).1.instr .standard = .noop (.direct 0) (.direct 0) := by decide
  rw [hn] at h
  cases h

theorem witness_StepRunsTheDecodedInstruction :
    vState.pending = false ∧
    decode vState.cfg.opcodes (vState.wordAt (u16 vState.ep))
      (vState.wordAt (u16 (vState.ep + 1))) (vState.wordAt (u16 (vState.ep + 2))) =
      .noop (.direct 0) (.direct 0) := by decide

theorem witness_PlacedInstructionRuns :
    mState.Inv ∧ fetchCovered mState = false ∧ vState.Inv ∧ vState.cfg.opcodes = .standard := by decide

theorem witness_ResetState :
    Reg.sp ≠ .ep ∧ Config.standard.regReset = .zero := by decide

theorem witness_StepKeepsTheInvariant : vState.Inv ∧ (nextOf (step vState)).isSome = true := by decide

theorem witness_SpinStaysPut :
    (spinState.cfg.regMap.valid ∧ spinState.cfg.opcodes.valid ∧ atSpin spinState = true) ∧
    fetchCovered spinState = true ∧ spinState.cfg.regMap = .standard := by decide

end Sys2Proof.Tests
end

/-! The ports (spec/00_scope.md section 5): what register accesses, polls and arrivals do to the input queue, what the
output collaborator makes of the accepted values, and the two obligations about them. -/

namespace Sys2Proof.Machine

/-! ### The input port -/

/-- R15, R80: an input-port address is read by a poll. -/
theorem regRead_of_input {s : State} {raw : Word} (h : regTarget s.cfg.regMap raw = some .input) :
    regRead raw s = inPoll s := by
  simp only [regRead, h]

theorem inPoll_of_empty {s : State} (h : s.inQueue = []) : inPoll s = (0, s) := by
  simp only [inPoll, h]

theorem inPoll_of_cons {s : State} {v : Word} {q : List Word} (h : s.inQueue = v :: q) :
    inPoll s = (v, { s with inQueue := q }) := by
  simp only [inPoll, h]

/-- A value that arrives at an empty queue is the next poll's answer, and that poll empties the queue again. -/
theorem inPoll_inputArrives_of_empty {s : State} {v : Word} (h : s.inQueue = []) :
    inPoll (inputArrives v s) = (v, s) := by
  have harrived : (inputArrives v s).inQueue = [v] := by simp [h]
  rw [inPoll_of_cons harrived, inputArrives, ← h]

/-- At a non-empty queue, an arrival and a poll commute: they act on different ends. -/
theorem inPoll_inputArrives_of_cons {s : State} {v w : Word} {q : List Word} (h : s.inQueue = w :: q) :
    inPoll (inputArrives v s) = ((inPoll s).1, inputArrives v (inPoll s).2) := by
  have harrived : (inputArrives v s).inQueue = w :: (q ++ [v]) := by simp [h]
  rw [inPoll_of_cons harrived, inPoll_of_cons h]
  rfl

/-! ### The output port -/

/-- R16, R81: a write to an output-port address is accepted by the port. -/
theorem regWrite_of_output {s : State} {raw : Word} (v : Word) (h : regTarget s.cfg.regMap raw = some .output) :
    regWrite raw v s = outAccept v s := by
  simp only [regWrite, h]

@[simp] theorem collaboratorOutput_nil (emitted buffered : List Word) :
    collaboratorOutput emitted buffered [] = (emitted, buffered) := rfl

theorem collaboratorOutput_flush (emitted buffered vs : List Word) :
    collaboratorOutput emitted buffered (0xFFFF :: vs) = collaboratorOutput (emitted ++ buffered) [] vs := by
  rw [collaboratorOutput, if_pos rfl]

theorem collaboratorOutput_value {v : Word} (hv : v ≠ 0xFFFF) (emitted buffered vs : List Word) :
    collaboratorOutput emitted buffered (v :: vs) = collaboratorOutput emitted (buffered ++ [v]) vs := by
  rw [collaboratorOutput, if_neg hv]

/-- The collaborator takes a longer list of values as its two parts, one after the other. -/
theorem collaboratorOutput_append (emitted buffered vs ws : List Word) :
    collaboratorOutput emitted buffered (vs ++ ws) =
      collaboratorOutput (collaboratorOutput emitted buffered vs).1 (collaboratorOutput emitted buffered vs).2 ws := by
  induction vs generalizing emitted buffered with
  | nil => rfl
  | cons v vs ih =>
    by_cases hv : v = 0xFFFF
    · subst hv
      simp only [List.cons_append, collaboratorOutput_flush, ih]
    · simp only [List.cons_append, collaboratorOutput_value hv, ih]

/-- Nothing is lost, added or reordered: emitted and buffered values together grow by the values but the flushes. -/
theorem collaboratorOutput_emitted_append_buffered (emitted buffered vs : List Word) :
    (collaboratorOutput emitted buffered vs).1 ++ (collaboratorOutput emitted buffered vs).2 =
      emitted ++ buffered ++ vs.filter (· ≠ 0xFFFF) := by
  induction vs generalizing emitted buffered with
  | nil => simp
  | cons v vs ih =>
    by_cases hv : v = 0xFFFF
    · subst hv
      rw [collaboratorOutput_flush, ih, List.filter_cons_of_neg (by decide), List.append_nil]
    · rw [collaboratorOutput_value hv, ih, List.filter_cons_of_pos (by simpa using hv)]
      simp only [List.append_assoc, List.singleton_append]

/-- Without a flush, values are only buffered. -/
theorem collaboratorOutput_of_not_mem_flush {vs : List Word} (h : 0xFFFF ∉ vs) (emitted buffered : List Word) :
    collaboratorOutput emitted buffered vs = (emitted, buffered ++ vs) := by
  induction vs generalizing buffered with
  | nil => simp
  | cons v vs ih =>
    obtain ⟨hv, hvs⟩ := List.ne_and_not_mem_of_not_mem_cons h
    rw [collaboratorOutput_value hv.symm, ih hvs, List.append_assoc, List.singleton_append]

/-- A flush at the end leaves every value emitted. -/
theorem collaboratorOutput_append_flush (emitted buffered vs : List Word) :
    collaboratorOutput emitted buffered (vs ++ [0xFFFF]) =
      (emitted ++ buffered ++ vs.filter (· ≠ 0xFFFF), []) := by
  rw [collaboratorOutput_append, collaboratorOutput_flush, collaboratorOutput_nil,
    collaboratorOutput_emitted_append_buffered]

/-! ### The obligations -/

/-- Settles O20: the port's rule, then conservation, buffering and the final flush, for a collaborator that holds
nothing at the start where the clause says so. -/
theorem outputPortKeepsOrder : Obligations.OutputPortKeepsOrder := by
  refine ⟨fun s v raw h => ?_, fun vs => ?_, fun emitted buffered vs h => ?_, fun vs => ?_⟩
  · exact regWrite_of_output v h
  · simpa using collaboratorOutput_emitted_append_buffered [] [] vs
  · exact collaboratorOutput_of_not_mem_flush h emitted buffered
  · simpa using collaboratorOutput_append_flush [] [] vs

/-- Settles O19, by the queue's two forms: empty, or an oldest value before the rest. -/
theorem inputPortIsAQueue : Obligations.InputPortIsAQueue := by
  refine fun s v raw => ⟨regRead_of_input, inPoll_of_empty, inPoll_inputArrives_of_empty, fun hne => ?_⟩
  obtain ⟨w, q, hq⟩ := List.exists_cons_of_ne_nil hne
  refine ⟨inPoll_inputArrives_of_cons hq, ?_⟩
  rw [inPoll_of_cons hq, hq]

end Sys2Proof.Machine

/-! The register cells (spec/10_state.md, R21): what a get reads after a set, an increment and a decrement, and the
obligation about them. -/

namespace Sys2Proof.Machine

/-! ### Get after set -/

theorem getReg_setReg (s : State) (r q : Reg) (v : Word) :
    (s.setReg r v).getReg q = if q = r then v else s.getReg q := by
  split
  case isTrue h => rw [h, getReg_setReg_same]
  case isFalse h => exact getReg_setReg_ne s v h

/-- Setting the old value back undoes a set: the set changed no other part of the state. -/
@[simp] theorem setReg_setReg_getReg (s : State) (r : Reg) (v : Word) :
    (s.setReg r v).setReg r (s.getReg r) = s := by
  rw [setReg_setReg_same, setReg_getReg]

/-! ### Increment and decrement -/

@[simp] theorem getReg_increment_same (s : State) (r : Reg) : (s.increment r).getReg r = s.getReg r + 1 :=
  getReg_setReg_same ..

@[simp] theorem getReg_decrement_same (s : State) (r : Reg) : (s.decrement r).getReg r = s.getReg r - 1 :=
  getReg_setReg_same ..

theorem getReg_increment_ne (s : State) {r q : Reg} (h : q ≠ r) : (s.increment r).getReg q = s.getReg q :=
  getReg_setReg_ne s _ h

theorem getReg_decrement_ne (s : State) {r q : Reg} (h : q ≠ r) : (s.decrement r).getReg q = s.getReg q :=
  getReg_setReg_ne s _ h

/-- Adding 1 to a word wraps at 65536. -/
theorem u16_add_one (w : Word) : u16 (w + 1) = (u16 w + 1) % 65536 :=
  BitVec.toNat_add w 1

/-- Subtracting 1 from a word wraps at 65536; on naturals it adds 65535. -/
theorem u16_sub_one (w : Word) : u16 (w - 1) = (u16 w + 65535) % 65536 := by
  rw [u16, BitVec.toNat_sub, Nat.add_comm]
  rfl

/-! ### The obligation -/

/-- Settles O9: get after set, the two wraparounds, the frame of increment and decrement, and the set undone; that
increment and decrement are sets is their definition. -/
theorem registerCellsHoldWords : Obligations.RegisterCellsHoldWords := by
  intro s r q v
  refine ⟨getReg_setReg s r q v, ?_, ?_, fun h => ?_, setReg_setReg_getReg s r v, rfl, rfl⟩
  · rw [getReg_increment_same, u16_add_one]
  · rw [getReg_decrement_same, u16_sub_one]
  · exact ⟨getReg_increment_ne s h, getReg_decrement_ne s h⟩

end Sys2Proof.Machine

/-! The memory mapper (spec/20_memory.md, R36 to R40): what the walk, the reads, the writes and the loader's read-back
give, what one transaction can do to the contents of memory, and the obligations about them. -/

namespace Sys2Proof.Machine

/-! ### The walk -/

/-- R36: the walk from block number `n` on finds a block `j` further, by the sizes of the blocks before it. -/
theorem resolveFrom_eq_some {bs : List Block} {n addr k r : Nat} (h : resolveFrom n bs addr = some (k, r)) :
    ∃ j b, k = n + j ∧ bs[j]? = some b ∧ r < blockSize b ∧ addr = totalSize (bs.take j) + r := by
  induction bs generalizing n addr with
  | nil => cases h
  | cons b bs ih =>
    rw [resolveFrom] at h
    split at h
    case isTrue hin =>
      obtain ⟨rfl, rfl⟩ : n = k ∧ addr = r := by simpa using h
      exact ⟨0, b, rfl, rfl, hin, by simp [totalSize]⟩
    case isFalse hout =>
      obtain ⟨j, c, hk, hc, hr, haddr⟩ := ih h
      refine ⟨j + 1, c, by omega, hc, hr, ?_⟩
      have hsize : totalSize ((b :: bs).take (j + 1)) = blockSize b + totalSize (bs.take j) := by simp [totalSize]
      omega

theorem resolve_eq_some {bs : List Block} {addr k r : Nat} (h : resolve bs addr = some (k, r)) :
    ∃ b, bs[k]? = some b ∧ r < blockSize b ∧ addr = totalSize (bs.take k) + r := by
  obtain ⟨j, b, hk, hb, hr, haddr⟩ := resolveFrom_eq_some h
  obtain rfl : k = j := by omega
  exact ⟨b, hb, hr, haddr⟩

theorem lt_totalSize_of_resolve {bs : List Block} {addr : Nat} {p : Nat × Nat} (h : resolve bs addr = some p) :
    addr < totalSize bs := by
  by_contra hbeyond
  rw [resolve_eq_none.2 (by omega)] at h
  cases h

/-- R41: an address that the walk finds is not negative, and is found as a natural number. -/
theorem resolve_toNat {bs : List Block} {addr : Int} {p : Nat × Nat} (h : resolveInt bs addr = some p) :
    resolve bs addr.toNat = some p := by
  cases addr with
  | ofNat a => exact h
  | negSucc a => cases h

theorem writableAt_of_resolve {bs : List Block} {addr k r : Nat} (h : resolve bs addr = some (k, r)) :
    writableAt bs addr = !blockReadOnly bs k := by
  simp only [writableAt, h]

/-! ### Reads and writes, and the loader's read-back -/

theorem memRead_of_covered {s : State} {addr : Nat} {p : Nat × Nat} (h : resolve s.cfg.blocks addr = some p) :
    memRead addr s = (s.wordAt addr, s) := by
  simp only [memRead, resolveInt_ofNat, h, Int.toNat_natCast]

theorem memRead_of_uncovered {s : State} {addr : Nat} (h : resolve s.cfg.blocks addr = none) :
    memRead addr s = (0, s.report (.memOobRead addr)) := by
  simp only [memRead, resolveInt_ofNat, h]

theorem memWrite_of_writable {s : State} {addr k r : Nat} (v : Word)
    (h : resolve s.cfg.blocks addr = some (k, r)) (hw : blockReadOnly s.cfg.blocks k = false) :
    memWrite addr v s = s.storeWord addr v := by
  simp only [memWrite, resolveInt_ofNat, h, hw, Int.toNat_natCast, Bool.false_eq_true, if_false]

theorem memWrite_of_readOnly {s : State} {addr k r : Nat} (v : Word)
    (h : resolve s.cfg.blocks addr = some (k, r)) (hro : blockReadOnly s.cfg.blocks k = true) :
    memWrite addr v s = s := by
  simp only [memWrite, resolveInt_ofNat, h, hro, if_true]

theorem memWrite_of_uncovered {s : State} {addr : Nat} (v : Word) (h : resolve s.cfg.blocks addr = none) :
    memWrite addr v s = s.report (.memOobWrite addr) := by
  simp only [memWrite, resolveInt_ofNat, h]

theorem getElem?_readBackFrom {s : State} {base n r : Nat} (h : r < n) :
    (readBackFrom s base n)[r]? = some (s.wordAt (base + r)) := by
  induction n generalizing base r with
  | zero => omega
  | succ n ih =>
    cases r with
    | zero => rfl
    | succ r =>
      rw [readBackFrom, List.getElem?_cons_succ, ih (by omega)]
      congr 2
      omega

/-- R17, R36: the loader reads back, at the block and offset that an address names, the word at that address. -/
theorem getElem?_readBack {s : State} {addr k r : Nat} (h : resolve s.cfg.blocks addr = some (k, r)) :
    (readBack s k)[r]? = some (s.wordAt addr) := by
  obtain ⟨b, hb, hr, rfl⟩ := resolve_eq_some h
  simp only [readBack, hb]
  exact getElem?_readBackFrom hr

/-! ### The invariant of memory and stack block -/

theorem cellGet_of_not_listed {d : Word} {a : Nat} {m : Cells} (h : ∀ c ∈ m, c.1 ≠ a) : cellGet d m a = d := by
  induction m with
  | nil => rfl
  | cons p m ih =>
    obtain ⟨hp, hm⟩ := List.forall_mem_cons.1 h
    rw [cellGet, if_neg hp.symm, ih hm]

/-- R39: under the invariant no cell lists a word of a read-only block, so it reads as loaded. -/
theorem wordAt_of_readOnly {s : State} {addr k r : Nat} (hs : s.Inv)
    (h : resolve s.cfg.blocks addr = some (k, r)) (hro : blockReadOnly s.cfg.blocks k = true) :
    s.wordAt addr = initialWord s.cfg.blocks addr := by
  obtain ⟨-, -, hwritable, -⟩ := hs
  simp only [State.wordAt, h]
  refine cellGet_of_not_listed fun c hc haddr => ?_
  have hfalse := hwritable c hc
  rw [haddr, writableAt_of_resolve h, hro] at hfalse
  cases hfalse

/-- A store to a word that may be written keeps the invariant. -/
theorem storeWord_inv {s : State} {addr : Nat} {v : Word} (hs : s.Inv)
    (hw : writableAt s.cfg.blocks addr = true) : (s.storeWord addr v).Inv := by
  obtain ⟨hmem, hstack, hwritable, hinside⟩ := hs
  refine ⟨storeWord_wf hmem, hstack, fun c hc => ?_, hinside⟩
  rcases mem_cellSet_index hc with hc | ⟨rfl, -⟩
  · exact hwritable c hc
  · exact hw

theorem memWrite_inv {s : State} (addr : Int) (v : Word) (hs : s.Inv) : (memWrite addr v s).Inv := by
  rcases memWrite_cases addr v s with ⟨k, r, h, hw, e⟩ | ⟨k, r, -, -, e⟩ | ⟨-, e⟩ <;> rw [e]
  · exact storeWord_inv hs (by rw [writableAt_of_resolve (resolve_toNat h), hw]; rfl)
  · exact hs
  · exact hs

theorem stackPush_inv {s : State} (v : Word) (hs : s.Inv) : (stackPush v s).Inv := by
  obtain ⟨hmem, hstack, hwritable, hinside⟩ := hs
  have hpushed : Stack.wf (stackPush v s) := stackPush_wf hstack
  rcases stackPush_cases v s with ⟨hin, e⟩ | ⟨-, e⟩ <;> rw [e] at hpushed ⊢
  · refine ⟨hmem, hpushed, hwritable, fun c hc => ?_⟩
    rcases mem_cellSet_index hc with hc | ⟨rfl, -⟩
    · exact hinside c hc
    · exact hin
  · exact ⟨hmem, hpushed, hwritable, hinside⟩

/-- The two states have the same parameters, and memory blocks and stack block with the same contents. -/
structure State.SameContents (s t : State) : Prop where
  cfg   : t.cfg = s.cfg
  mem   : t.mem = s.mem
  stack : t.stack = s.stack

theorem State.SameContents.trans {s t u : State} (hst : s.SameContents t) (htu : t.SameContents u) :
    s.SameContents u :=
  ⟨htu.cfg.trans hst.cfg, htu.mem.trans hst.mem, htu.stack.trans hst.stack⟩

/-- The invariant speaks of the parameters and of the contents alone. -/
theorem State.SameContents.inv {s t : State} (h : s.SameContents t) (hs : s.Inv) : t.Inv := by
  simpa only [State.Inv, Memory.wf, Stack.wf, h.cfg, h.mem, h.stack] using hs

theorem sameContents_setReg (s : State) (r : Reg) (v : Word) : s.SameContents (s.setReg r v) :=
  ⟨setReg_cfg .., setReg_mem .., setReg_stack ..⟩

theorem sameContents_resolveSrc (o : Operand) (s : State) : s.SameContents (resolveSrc o s).2 :=
  ⟨resolveSrc_cfg .., resolveSrc_mem .., resolveSrc_stack ..⟩

theorem sameContents_resolveSrc_resolveSrc (a b : Operand) (s : State) :
    s.SameContents (resolveSrc b (resolveSrc a s).2).2 :=
  (sameContents_resolveSrc a s).trans (sameContents_resolveSrc b _)

theorem sameContents_resolveDst (o : Operand) (s : State) : s.SameContents (resolveDst o s).2 :=
  ⟨resolveDst_cfg .., resolveDst_mem .., resolveDst_stack ..⟩

theorem sameContents_fetch (s : State) : s.SameContents (fetch s).2 := by
  rw [fetch_state]
  exact ⟨rfl, rfl, rfl⟩

theorem writeDst_inv {s : State} (d : Dest) (v : Word) (hs : s.Inv) : (writeDst d v s).Inv := by
  cases d with
  | memory addr => exact memWrite_inv addr v hs
  | register raw =>
    rw [writeDst]
    rcases regWrite_cases raw v s with ⟨r, -, e⟩ | ⟨-, e⟩ | ⟨-, e⟩ | ⟨-, e⟩ <;> rw [e]
    · exact (sameContents_setReg s r v).inv hs
    · exact stackPush_inv v hs
    · exact hs
    · exact hs

theorem writeDst_cfg (d : Dest) (v : Word) (s : State) : (writeDst d v s).cfg = s.cfg := by
  cases d with
  | memory addr =>
    rw [writeDst]
    rcases memWrite_cases addr v s with ⟨k, r, -, -, e⟩ | ⟨k, r, -, -, e⟩ | ⟨-, e⟩ <;> rw [e] <;> rfl
  | register raw =>
    rw [writeDst]
    rcases regWrite_cases raw v s with ⟨r, -, e⟩ | ⟨-, e⟩ | ⟨-, e⟩ | ⟨-, e⟩ <;> rw [e]
    · exact setReg_cfg s r v
    · rcases stackPush_cases v s with ⟨-, e⟩ | ⟨-, e⟩ <;> rw [e]
    · rfl
    · rfl

/-! ### Transactions -/

/-- What an instruction can do to the contents: nothing, or, as a MOVE, the one write of its destination. -/
theorem exec_contents {i : Instr} {s t : State} (h : exec i s = .next t) :
    s.SameContents t ∨ ∃ d v u, s.SameContents u ∧ t = writeDst d v u := by
  rcases instr_cases i with hmath | hjump | ⟨src, dst, rfl⟩ | ⟨src, x, rfl⟩ | ⟨opc, a, b, rfl⟩
  · obtain ⟨o, ho⟩ := exec_math hmath
    rw [ho, mathClass_eq] at h
    cases h
    obtain ⟨hcfg, hmem, hstack⟩ := sameContents_resolveSrc_resolveSrc i.operand0 i.operand1 s
    exact .inl ⟨hcfg, hmem, hstack⟩
  · obtain ⟨o, ho⟩ := exec_jump hjump
    rw [ho, jumpClass_eq] at h
    cases h
    obtain ⟨hcfg, hmem, hstack⟩ := sameContents_resolveSrc_resolveSrc i.operand0 i.operand1 s
    exact .inl ⟨hcfg, hmem, hstack⟩
  · cases h
    exact .inr ⟨_, _, _, (sameContents_resolveSrc src s).trans (sameContents_resolveDst dst _), rfl⟩
  · cases h
    obtain ⟨hcfg, hmem, hstack⟩ := sameContents_resolveSrc src s
    exact .inl ⟨hcfg, hmem, hstack⟩
  · cases h
    exact .inl ⟨rfl, rfl, rfl⟩

theorem exec_inv {i : Instr} {s t : State} (hs : s.Inv) (h : exec i s = .next t) : t.Inv ∧ t.cfg = s.cfg := by
  rcases exec_contents h with hsame | ⟨d, v, u, hsame, rfl⟩
  · exact ⟨hsame.inv hs, hsame.cfg⟩
  · exact ⟨writeDst_inv d v (hsame.inv hs), (writeDst_cfg d v u).trans hsame.cfg⟩

theorem step_inv {s t : State} (hs : s.Inv) (h : step s = .next t) : t.Inv ∧ t.cfg = s.cfg := by
  rcases step_cases s with ⟨-, e⟩ | ⟨-, e⟩ <;> rw [e] at h
  · cases h
    exact ⟨hs, rfl⟩
  · have hfetch := sameContents_fetch s
    obtain ⟨ht, hcfg⟩ := exec_inv (hfetch.inv hs) h
    exact ⟨ht, hcfg.trans hfetch.cfg⟩

/-- A raised interrupt and an arrival at the input port leave the contents alone. -/
theorem transact_inv {a : Transaction} {s t : State} (hs : s.Inv) (h : transact a s = .next t) :
    t.Inv ∧ t.cfg = s.cfg := by
  cases a with
  | step => exact step_inv hs h
  | raiseInterrupt code => cases h; exact ⟨hs, rfl⟩
  | inputArrives v => cases h; exact ⟨hs, rfl⟩

theorem runTransactions_inv {ts : List Transaction} {s t : State} (hs : s.Inv)
    (h : runTransactions ts s = .next t) : t.Inv ∧ t.cfg = s.cfg := by
  induction ts generalizing s with
  | nil => cases h; exact ⟨hs, rfl⟩
  | cons a ts ih =>
    rw [runTransactions] at h
    split at h
    · next u hfirst =>
      obtain ⟨hu, hcfg⟩ := transact_inv hs hfirst
      obtain ⟨ht, hcfg'⟩ := ih hu h
      exact ⟨ht, hcfg'.trans hcfg⟩
    · cases h
    · cases h

/-! ### The obligations -/

/-- Settles O15: the invariant holds at the end of every run, and under it a read-only block reads as loaded. -/
theorem readOnlyBlocksKeepTheirContent : Obligations.ReadOnlyBlocksKeepTheirContent := by
  refine ⟨fun s addr v k r h hro => memWrite_of_readOnly v h hro, fun ts s t hs hrun addr k r h hro => ?_⟩
  obtain ⟨ht, hcfg⟩ := runTransactions_inv hs hrun
  rw [← hcfg] at h hro ⊢
  exact wordAt_of_readOnly ht h hro

/-- Settles O11: a covered read is the word at the address, which is what the loader reads back there. -/
theorem memoryReadGivesTheBlocksWord : Obligations.MemoryReadGivesTheBlocksWord := by
  refine fun s addr => ⟨fun k r h => ?_, memRead_of_uncovered⟩
  rw [memRead_of_covered h]
  exact ⟨getElem?_readBack h, rfl⟩

/-- Settles O12, by the three outcomes of a write: a store, a silent drop and a reported drop. -/
theorem memoryWriteSetsTheBlocksWord : Obligations.MemoryWriteSetsTheBlocksWord := by
  refine fun s addr v hwf => ⟨fun k r h hw => ?_, fun k r => memWrite_of_readOnly v, memWrite_of_uncovered v⟩
  rw [memWrite_of_writable v h hw]
  have hstored : (s.storeWord addr v).wordAt addr = v := wordAt_storeWord_same hwf (lt_totalSize_of_resolve h)
  refine ⟨?_, fun other hne => wordAt_storeWord_ne hne, rfl⟩
  rw [getElem?_readBack (s := s.storeWord addr v) h, hstored]

/-- Settles O14: the walk finds nothing at or beyond the total size, so both accesses only report. -/
theorem accessesBeyondTheBlocksDegrade : Obligations.AccessesBeyondTheBlocksDegrade := by
  intro s addr v hbeyond
  have hnone : resolve s.cfg.blocks addr = none := resolve_eq_none.2 hbeyond
  exact ⟨memRead_of_uncovered hnone, memWrite_of_uncovered v hnone⟩

end Sys2Proof.Machine

/-! The decoder (spec/30_encoding.md, R64, R70, R78): which fields an instruction carries, what the class says of the
cleaned opcode, and the obligation about the opcode word's split. -/

namespace Sys2Proof

/-- Under the opcode values `m`, the instruction has the operands `a` and `b` and the cleaned opcode `opc`. -/
structure Instr.Carries (m : OpcodeMap) (i : Instr) (a b : Operand) (opc : BitVec 10) : Prop where
  operand0 : i.operand0 = a
  operand1 : i.operand1 = b
  opcode   : i.opcode m = opc

/-- R69, R90: the instruction of an ALU operation carries its operands and, under the math class's high field, its
kind; a reserved kind is carried by whichever row of the table it falls in. -/
theorem AluOp.instr_carries (m : OpcodeMap) (o : AluOp) (a b : Operand) :
    (o.instr a b).Carries m a b (m.mathHigh ++ m.aluKind o) := by
  cases o
  case reserved kind =>
    by_cases h11 : kind = 11
    · subst h11
      exact ⟨rfl, rfl, rfl⟩
    · rw [AluOp.instr, if_neg h11]
      exact ⟨rfl, rfl, rfl⟩
  all_goals exact ⟨rfl, rfl, rfl⟩

/-- R69, R91: the instruction of a comparison carries its operands and, under the jump class's high field, its kind; a
reserved kind is carried by whichever row of the table it falls in. -/
theorem CmpOp.instr_carries (m : OpcodeMap) (o : CmpOp) (a b : Operand) :
    (o.instr a b).Carries m a b (m.jumpHigh ++ m.cmpKind o) := by
  cases o
  case reserved kind =>
    by_cases h5 : kind = 5
    · subst h5
      exact ⟨rfl, rfl, rfl⟩
    · by_cases h67 : kind = 6 ∨ kind = 7
      · rw [CmpOp.instr, if_neg h5, if_pos h67]
        exact ⟨rfl, rfl, rfl⟩
      · rw [CmpOp.instr, if_neg h5, if_neg h67]
        exact ⟨rfl, rfl, rfl⟩
  all_goals exact ⟨rfl, rfl, rfl⟩

/-- R70: what the class of a cleaned opcode says of its bits, whatever the opcode values. -/
theorem classOf_cases (m : OpcodeMap) (opc : BitVec 10) :
    (classOf m opc = .math ∧ opc.extractLsb' 4 6 = m.mathHigh) ∨
    (classOf m opc = .jump ∧ opc.extractLsb' 4 6 = m.jumpHigh) ∨
    (classOf m opc = .move ∧ opc = m.move) ∨
    (classOf m opc = .interrupt ∧ opc = m.int) ∨
    classOf m opc = .unknown := by
  unfold classOf
  split
  case isTrue hmath => exact .inl ⟨rfl, hmath.1⟩
  split
  case isTrue hjump => exact .inr (.inl ⟨rfl, hjump.1⟩)
  split
  case isTrue hmove => exact .inr (.inr (.inl ⟨rfl, hmove⟩))
  split
  case isTrue hint => exact .inr (.inr (.inr (.inl ⟨rfl, hint⟩)))
  exact .inr (.inr (.inr (.inr rfl)))

/-- R78: the decoded instruction carries what the opcode word splits into: in the math and jump classes the kind is
looked up and found again, in the others the opcode is the class's own or is kept. -/
theorem decode_carries (m : OpcodeMap) (op raw0 raw1 : Word) :
    (decode m op raw0 raw1).Carries m (decodeOperand0 op raw0) (decodeOperand1 op raw1) (cleanedOpcode op) := by
  rcases classOf_cases m (cleanedOpcode op) with
    ⟨hc, hhigh⟩ | ⟨hc, hhigh⟩ | ⟨hc, hopc⟩ | ⟨hc, hopc⟩ | hc <;> simp only [decode, hc]
  · have hinstr := AluOp.instr_carries m (m.aluOp ((cleanedOpcode op).extractLsb' 0 4))
      (decodeOperand0 op raw0) (decodeOperand1 op raw1)
    rwa [OpcodeMap.aluKind_aluOp, ← hhigh, append_high_low] at hinstr
  · have hinstr := CmpOp.instr_carries m (m.cmpOp ((cleanedOpcode op).extractLsb' 0 4))
      (decodeOperand0 op raw0) (decodeOperand1 op raw1)
    rwa [OpcodeMap.cmpKind_cmpOp, ← hhigh, append_high_low] at hinstr
  · exact ⟨rfl, rfl, hopc.symm⟩
  · exact ⟨rfl, rfl, hopc.symm⟩
  · exact ⟨rfl, rfl, rfl⟩

/-- R63: the decoder of a list of words takes its first three. -/
theorem decodeWords_cons (m : OpcodeMap) (op raw0 raw1 : Word) (rest : List Word) :
    decodeWords m (op :: raw0 :: raw1 :: rest) = .ok (decode m op raw0 raw1, rest) := rfl

/-- Settles O3: the three words' instruction exists by the decoder's equation, and carries the split's fields. -/
theorem decodeSplitsTheOpcodeWord : Obligations.DecodeSplitsTheOpcodeWord := by
  intro m op raw0 raw1 rest
  obtain ⟨hoperand0, hoperand1, hopcode⟩ := decode_carries m op raw0 raw1
  exact ⟨decode m op raw0 raw1, decodeWords_cons m op raw0 raw1 rest, hoperand0, hoperand1, hopcode⟩

end Sys2Proof

/-! The flags byte (spec/41_math.md, R88 and R89): what each of its bits says, which requests the ALU answers as a
comparison, and the obligation about both. -/

namespace Sys2Proof.Machine

/-! ### The bits of the flags byte -/

/-- R89: the flags byte as one bit put behind the bits before it, eight times, so that `BitVec.getLsbD_concat_succ`
and `BitVec.getLsbD_concat_zero` read any of its bits. -/
theorem flagsByte_eq_concat (in0 in1 out0 out1 : Word) :
    flagsByte in0 in1 out0 out1 =
      (((((((BitVec.ofBool (in0 = in1)).concat (!decide (s16 in0 < s16 in1))).concat (out0 ≠ 0)).concat
        (s16 out0 < 0)).concat (0 < s16 out0)).concat (out1 ≠ 0)).concat (s16 out1 < 0)).concat (0 < s16 out1) := by
  simp only [flagsByte, BitVec.append_ofBool, gt_iff_lt]

/-- R89: bits 7 and 6 compare the inputs. -/
theorem flagsByte_input_bits (in0 in1 out0 out1 : Word) :
    ((flagsByte in0 in1 out0 out1).getLsbD 7 = true ↔ in0 = in1) ∧
    ((flagsByte in0 in1 out0 out1).getLsbD 6 = true ↔ ¬ s16 in0 < s16 in1) := by
  simp [flagsByte_eq_concat]

/-- R89: bits 5, 4 and 3 compare the first output with 0. -/
theorem flagsByte_output0_bits (in0 in1 out0 out1 : Word) :
    ((flagsByte in0 in1 out0 out1).getLsbD 5 = true ↔ out0 ≠ 0) ∧
    ((flagsByte in0 in1 out0 out1).getLsbD 4 = true ↔ s16 out0 < 0) ∧
    ((flagsByte in0 in1 out0 out1).getLsbD 3 = true ↔ 0 < s16 out0) := by
  simp [flagsByte_eq_concat]

/-- R89: bits 2, 1 and 0 compare the second output with 0. -/
theorem flagsByte_output1_bits (in0 in1 out0 out1 : Word) :
    ((flagsByte in0 in1 out0 out1).getLsbD 2 = true ↔ out1 ≠ 0) ∧
    ((flagsByte in0 in1 out0 out1).getLsbD 1 = true ↔ s16 out1 < 0) ∧
    ((flagsByte in0 in1 out0 out1).getLsbD 0 = true ↔ 0 < s16 out1) := by
  simp [flagsByte_eq_concat]

/-! ### Comparison requests -/

/-- R88: the ALU answers as a comparison when bit 4 of its opcode input requests one, and only then. -/
theorem alu_isComparison (cfg : Config) (op5 : BitVec 5) (a b : Word) :
    (alu cfg op5 a b).isComparison = op5.getLsbD 4 := by
  cases hreq : op5.getLsbD 4 with
  | false => rw [alu_operation hreq, aluOperate]
  | true => rw [alu_comparison hreq, aluCompare]

/-- R88: a comparison's flags take the operands as inputs and as outputs, whatever the kind. -/
@[simp] theorem aluCompare_flags (o : CmpOp) (a b : Word) : (aluCompare o a b).flags = flagsByte a b a b := rfl

/-! ### The obligation -/

/-- Settles O22: the bits by the argument they look at; an answer that is a comparison was requested by bit 4. -/
theorem flagsByteBits : Obligations.FlagsByteBits := by
  refine ⟨fun in0 in1 out0 out1 => ?_, fun cfg op5 a b hcmp => ?_⟩
  · obtain ⟨hequal, hnotLess⟩ := flagsByte_input_bits in0 in1 out0 out1
    obtain ⟨hnonzero0, hneg0, hpos0⟩ := flagsByte_output0_bits in0 in1 out0 out1
    obtain ⟨hnonzero1, hneg1, hpos1⟩ := flagsByte_output1_bits in0 in1 out0 out1
    exact ⟨hequal, hnotLess, hnonzero0, hneg0, hpos0, hnonzero1, hneg1, hpos1⟩
  · rw [alu_isComparison] at hcmp
    rw [alu_comparison hcmp, aluCompare_flags]

end Sys2Proof.Machine

/-! The service of an interrupt (spec/60_exceptions.md, R126): what a step does while the pending flag is set. -/

namespace Sys2Proof.Machine

/-- R126: while an interrupt is pending, a step is the service alone; the fetching case of `step_cases` would need the
flag clear. -/
theorem step_of_pending {s : State} (h : s.pending = true) : step s = .next (service s) := by
  rcases step_cases s with ⟨-, hservice⟩ | ⟨hclear, -⟩
  · exact hservice
  · exact absurd h (Bool.eq_false_iff.mp hclear)

/-- Settles O40: the step is the service, and the service writes the pending flag and EP alone. -/
theorem serviceTakesThePendingInterrupt : Obligations.ServiceTakesThePendingInterrupt := by
  intro s hpending
  rw [step_of_pending hpending, service]

end Sys2Proof.Machine

/-! The encoder and the decoder, each undone by the other (spec/30_encoding.md, R63, R64, R69 to R72): which
instructions are well formed, what the decoder answers in each class, the opcode table, and the obligations about
them. -/

namespace Sys2Proof

/-! ### The instruction of an operation: its class, and when it is well formed -/

@[simp] theorem AluOp.instr_cls (o : AluOp) (a b : Operand) : (o.instr a b).cls = .math := by
  cases o
  case reserved kind => rw [AluOp.instr]; split <;> rfl
  all_goals rfl

@[simp] theorem CmpOp.instr_cls (o : CmpOp) (a b : Operand) : (o.instr a b).cls = .jump := by
  cases o
  case reserved kind => rw [CmpOp.instr]; split_ifs <;> rfl
  all_goals rfl

theorem AluOp.instr_wf_of_named {o : AluOp} (h : o ∈ namedAluOps) (m : OpcodeMap) (a b : Operand) :
    (o.instr a b).wf m = true := by
  cases o
  case reserved kind => simp [namedAluOps] at h
  all_goals rfl

theorem CmpOp.instr_wf_of_named {o : CmpOp} (h : o ∈ namedCmpOps) (m : OpcodeMap) (a b : Operand) :
    (o.instr a b).wf m = true := by
  cases o
  case reserved kind => simp [namedCmpOps] at h
  all_goals rfl

/-! R92: the row of the table that each reserved kind falls in. -/

theorem AluOp.instr_reserved_of_ne {kind : BitVec 4} (h11 : kind ≠ 11) (a b : Operand) :
    (AluOp.reserved kind).instr a b = .mathUnk12 kind a b := if_neg h11

theorem CmpOp.instr_reserved_of_six_or_seven {kind : BitVec 4} (h67 : kind = 6 ∨ kind = 7) (a b : Operand) :
    (CmpOp.reserved kind).instr a b = .jumpUnk6 kind a b := by
  have h5 : kind ≠ 5 := by rcases h67 with rfl | rfl <;> decide
  rw [CmpOp.instr, if_neg h5, if_pos h67]

theorem CmpOp.instr_reserved_of_other {kind : BitVec 4} (h5 : kind ≠ 5) (h67 : ¬ (kind = 6 ∨ kind = 7))
    (a b : Operand) : (CmpOp.reserved kind).instr a b = .jumpUnk8 kind a b := by
  rw [CmpOp.instr, if_neg h5, if_neg h67]

/-- R92: the instruction of a reserved kind is well formed when the math class takes the kind as an unknown one,
whichever row of the table it falls in. -/
theorem AluOp.instr_wf_reserved (m : OpcodeMap) (kind : BitVec 4) (a b : Operand) :
    ((AluOp.reserved kind).instr a b).wf m = m.mathReserved kind := by
  by_cases h11 : kind = 11
  · subst h11
    rfl
  · rw [AluOp.instr_reserved_of_ne h11, Instr.wf, bne_iff_ne.2 h11, Bool.and_true]

/-- R92: the instruction of a reserved kind is well formed when the jump class takes the kind as an unknown one,
whichever row of the table it falls in. -/
theorem CmpOp.instr_wf_reserved (m : OpcodeMap) (kind : BitVec 4) (a b : Operand) :
    ((CmpOp.reserved kind).instr a b).wf m = m.jumpReserved kind := by
  by_cases h5 : kind = 5
  · subst h5
    rfl
  · by_cases h67 : kind = 6 ∨ kind = 7
    · have hrow : (kind == 6 || kind == 7) = true := by simpa using h67
      rw [CmpOp.instr_reserved_of_six_or_seven h67, Instr.wf, hrow, Bool.and_true]
    · have hrow : (kind == 5 || kind == 6 || kind == 7) = false := by
        simpa [and_assoc] using And.intro h5 h67
      rw [CmpOp.instr_reserved_of_other h5 h67, Instr.wf, hrow, Bool.not_false, Bool.and_true]

/-- A well-formed instruction of the math class is the instruction of an ALU operation. -/
theorem Instr.exists_aluOp {m : OpcodeMap} {i : Instr} (hc : i.cls = .math) (hw : i.wf m = true) :
    ∃ o : AluOp, i = o.instr i.operand0 i.operand1 := by
  cases i with
  | noop a b => exact ⟨.noop, rfl⟩
  | add a b => exact ⟨.add, rfl⟩
  | sub a b => exact ⟨.sub, rfl⟩
  | mul a b => exact ⟨.mul, rfl⟩
  | div a b => exact ⟨.div, rfl⟩
  | mod a b => exact ⟨.mod, rfl⟩
  | and a b => exact ⟨.and, rfl⟩
  | or a b => exact ⟨.or, rfl⟩
  | xor a b => exact ⟨.xor, rfl⟩
  | shl a b => exact ⟨.shl, rfl⟩
  | shr a b => exact ⟨.shr, rfl⟩
  | mathUnk11 a b => exact ⟨.reserved 11, rfl⟩
  | mathUnk12 kind a b =>
    have hrow : kind ≠ 11 := by
      simp only [Instr.wf, Bool.and_eq_true, bne_iff_ne] at hw
      exact hw.2
    exact ⟨.reserved kind, (AluOp.instr_reserved_of_ne hrow a b).symm⟩
  | _ => cases hc

/-- A well-formed instruction of the jump class is the instruction of a comparison. -/
theorem Instr.exists_cmpOp {m : OpcodeMap} {i : Instr} (hc : i.cls = .jump) (hw : i.wf m = true) :
    ∃ o : CmpOp, i = o.instr i.operand0 i.operand1 := by
  cases i with
  | jeq a b => exact ⟨.equal, rfl⟩
  | jlt a b => exact ⟨.less, rfl⟩
  | jle a b => exact ⟨.lessOrEqual, rfl⟩
  | jgt a b => exact ⟨.greater, rfl⟩
  | jge a b => exact ⟨.greaterOrEqual, rfl⟩
  | jumpUnk5 a b => exact ⟨.reserved 5, rfl⟩
  | jumpUnk6 kind a b =>
    obtain ⟨-, hrow⟩ : m.jumpReserved kind = true ∧ (kind = 6 ∨ kind = 7) := by simpa [Instr.wf] using hw
    exact ⟨.reserved kind, (CmpOp.instr_reserved_of_six_or_seven hrow a b).symm⟩
  | jumpUnk8 kind a b =>
    obtain ⟨-, h5, h67⟩ : m.jumpReserved kind = true ∧ kind ≠ 5 ∧ ¬ (kind = 6 ∨ kind = 7) := by
      simpa [Instr.wf, and_assoc] using hw
    exact ⟨.reserved kind, (CmpOp.instr_reserved_of_other h5 h67 a b).symm⟩
  | _ => cases hc

/-! ### Looking a kind up -/

theorem OpcodeMap.mathReserved_iff {m : OpcodeMap} {kind : BitVec 4} :
    m.mathReserved kind = true ↔ m.fullRanges = true ∧ kind ∉ m.aluKinds := by
  simp [mathReserved]

theorem OpcodeMap.jumpReserved_iff {m : OpcodeMap} {kind : BitVec 4} :
    m.jumpReserved kind = true ↔ m.fullRanges = true ∧ kind ∉ m.cmpKinds := by
  simp [jumpReserved]

/-- Under opcode values that are a numbering, the operation of a well-formed instruction is the one its kind looks up,
and its kind belongs to the math class. -/
theorem AluOp.aluOp_aluKind_of_wf {m : OpcodeMap} (hv : m.valid) {o : AluOp} {a b : Operand}
    (hw : (o.instr a b).wf m = true) :
    m.aluOp (m.aluKind o) = o ∧ (m.fullRanges = true ∨ m.aluKind o ∈ m.aluKinds) := by
  obtain ⟨hdistinct, -⟩ := hv
  rcases o.named_or_reserved with hnamed | ⟨kind, rfl⟩
  · exact ⟨OpcodeMap.aluOp_aluKind hdistinct hnamed, .inr (List.mem_map_of_mem hnamed)⟩
  · rw [AluOp.instr_wf_reserved, OpcodeMap.mathReserved_iff] at hw
    exact ⟨OpcodeMap.aluOp_eq_reserved.2 ⟨rfl, hw.2⟩, .inl hw.1⟩

/-- Under opcode values that are a numbering, the comparison of a well-formed instruction is the one its kind looks up,
and its kind belongs to the jump class. -/
theorem CmpOp.cmpOp_cmpKind_of_wf {m : OpcodeMap} (hv : m.valid) {o : CmpOp} {a b : Operand}
    (hw : (o.instr a b).wf m = true) :
    m.cmpOp (m.cmpKind o) = o ∧ (m.fullRanges = true ∨ m.cmpKind o ∈ m.cmpKinds) := by
  obtain ⟨-, hdistinct, -⟩ := hv
  rcases o.named_or_reserved with hnamed | ⟨kind, rfl⟩
  · exact ⟨OpcodeMap.cmpOp_cmpKind hdistinct hnamed, .inr (List.mem_map_of_mem hnamed)⟩
  · rw [CmpOp.instr_wf_reserved, OpcodeMap.jumpReserved_iff] at hw
    exact ⟨OpcodeMap.cmpOp_eq_reserved.2 ⟨rfl, hw.2⟩, .inl hw.1⟩

/-- The operation that the math class looks up for a kind of its own makes a well-formed instruction. -/
theorem OpcodeMap.aluOp_instr_wf {m : OpcodeMap} {kind : BitVec 4}
    (h : m.fullRanges = true ∨ kind ∈ m.aluKinds) (a b : Operand) : ((m.aluOp kind).instr a b).wf m = true := by
  rcases (m.aluOp kind).named_or_reserved with hnamed | ⟨k, hk⟩
  · exact AluOp.instr_wf_of_named hnamed m a b
  · obtain ⟨rfl, hunnamed⟩ := OpcodeMap.aluOp_eq_reserved.1 hk
    rw [hk, AluOp.instr_wf_reserved, OpcodeMap.mathReserved_iff]
    exact ⟨h.resolve_right hunnamed, hunnamed⟩

/-- The comparison that the jump class looks up for a kind of its own makes a well-formed instruction. -/
theorem OpcodeMap.cmpOp_instr_wf {m : OpcodeMap} {kind : BitVec 4}
    (h : m.fullRanges = true ∨ kind ∈ m.cmpKinds) (a b : Operand) : ((m.cmpOp kind).instr a b).wf m = true := by
  rcases (m.cmpOp kind).named_or_reserved with hnamed | ⟨k, hk⟩
  · exact CmpOp.instr_wf_of_named hnamed m a b
  · obtain ⟨rfl, hunnamed⟩ := OpcodeMap.cmpOp_eq_reserved.1 hk
    rw [hk, CmpOp.instr_wf_reserved, OpcodeMap.jumpReserved_iff]
    exact ⟨h.resolve_right hunnamed, hunnamed⟩

/-! ### What the decoder answers in each class -/

section
variable {m : OpcodeMap} {op raw0 raw1 : Word}

theorem decode_of_math (h : classOf m (cleanedOpcode op) = .math) :
    decode m op raw0 raw1 =
      (m.aluOp ((cleanedOpcode op).extractLsb' 0 4)).instr (decodeOperand0 op raw0) (decodeOperand1 op raw1) := by
  simp only [decode, h]

theorem decode_of_jump (h : classOf m (cleanedOpcode op) = .jump) :
    decode m op raw0 raw1 =
      (m.cmpOp ((cleanedOpcode op).extractLsb' 0 4)).instr (decodeOperand0 op raw0) (decodeOperand1 op raw1) := by
  simp only [decode, h]

theorem decode_of_move (h : classOf m (cleanedOpcode op) = .move) :
    decode m op raw0 raw1 = .move (decodeOperand0 op raw0) (decodeOperand1 op raw1) := by
  simp only [decode, h]

theorem decode_of_interrupt (h : classOf m (cleanedOpcode op) = .interrupt) :
    decode m op raw0 raw1 = .int (decodeOperand0 op raw0) (decodeOperand1 op raw1) := by
  simp only [decode, h]

theorem decode_of_unknown (h : classOf m (cleanedOpcode op) = .unknown) :
    decode m op raw0 raw1 = .unknown (cleanedOpcode op) (decodeOperand0 op raw0) (decodeOperand1 op raw1) := by
  simp only [decode, h]

/-- R70: the class of the decoded instruction is the class of the cleaned opcode. -/
theorem decode_cls : (decode m op raw0 raw1).cls = classOf m (cleanedOpcode op) := by
  cases h : classOf m (cleanedOpcode op) with
  | math => rw [decode_of_math h, AluOp.instr_cls]
  | jump => rw [decode_of_jump h, CmpOp.instr_cls]
  | move => rw [decode_of_move h, Instr.cls]
  | interrupt => rw [decode_of_interrupt h, Instr.cls]
  | unknown => rw [decode_of_unknown h, Instr.cls]

end

/-! ### Decoding what the encoder writes -/

/-- R70: under opcode values that are a numbering, the opcode of a well-formed instruction is of its class. -/
theorem classOf_opcode {m : OpcodeMap} (hv : m.valid) {i : Instr} (hw : i.wf m = true) :
    classOf m (i.opcode m) = i.cls := by
  rcases Machine.instr_cases i with hmath | hjump | ⟨src, dst, rfl⟩ | ⟨src, x, rfl⟩ | ⟨opc, a, b, rfl⟩
  · obtain ⟨o, ho⟩ := Instr.exists_aluOp hmath hw
    rw [ho] at hw ⊢
    rw [(AluOp.instr_carries m o _ _).opcode, AluOp.instr_cls]
    exact Laws.classOf_math (AluOp.aluOp_aluKind_of_wf hv hw).2
  · obtain ⟨o, ho⟩ := Instr.exists_cmpOp hjump hw
    rw [ho] at hw ⊢
    rw [(CmpOp.instr_carries m o _ _).opcode, CmpOp.instr_cls]
    exact Laws.classOf_jump hv (CmpOp.cmpOp_cmpKind_of_wf hv hw).2
  · exact (Laws.EncodeShape.move src dst m).2 hv hw
  · exact (Laws.EncodeShape.int src x m).2 hv hw
  · exact (Laws.EncodeShape.unknown opc a b m).2 hv hw

theorem decode_opcodeWord {m : OpcodeMap} (hv : m.valid) {i : Instr} (hw : i.wf m = true) :
    decode m (opcodeWord i.operand0 i.operand1 (i.opcode m)) i.operand0.raw i.operand1.raw = i := by
  have hcls := classOf_opcode hv hw
  rw [← cleanedOpcode_opcodeWord i.operand0 i.operand1 (i.opcode m)] at hcls
  rcases Machine.instr_cases i with hmath | hjump | ⟨src, dst, rfl⟩ | ⟨src, x, rfl⟩ | ⟨opc, a, b, rfl⟩
  · obtain ⟨o, ho⟩ := Instr.exists_aluOp hmath hw
    have hkind : i.opcode m = m.mathHigh ++ m.aluKind o := by rw [ho, (AluOp.instr_carries m o _ _).opcode]
    rw [ho] at hw
    rw [decode_of_math (hcls.trans hmath), cleanedOpcode_opcodeWord, decodeOperand0_opcodeWord,
      decodeOperand1_opcodeWord, hkind, low_append, (AluOp.aluOp_aluKind_of_wf hv hw).1, ← ho]
  · obtain ⟨o, ho⟩ := Instr.exists_cmpOp hjump hw
    have hkind : i.opcode m = m.jumpHigh ++ m.cmpKind o := by rw [ho, (CmpOp.instr_carries m o _ _).opcode]
    rw [ho] at hw
    rw [decode_of_jump (hcls.trans hjump), cleanedOpcode_opcodeWord, decodeOperand0_opcodeWord,
      decodeOperand1_opcodeWord, hkind, low_append, (CmpOp.cmpOp_cmpKind_of_wf hv hw).1, ← ho]
  · rw [decode_of_move hcls, decodeOperand0_opcodeWord, decodeOperand1_opcodeWord, Instr.operand0, Instr.operand1]
  · rw [decode_of_interrupt hcls, decodeOperand0_opcodeWord, decodeOperand1_opcodeWord, Instr.operand0,
      Instr.operand1]
  · rw [decode_of_unknown hcls, cleanedOpcode_opcodeWord, decodeOperand0_opcodeWord, decodeOperand1_opcodeWord,
      Instr.operand0, Instr.operand1, Instr.opcode]

/-- Settles O1: the decoder takes the encoder's three words, whose fields and class give the instruction back. -/
theorem decodeReadsWhatEncodeWrites : Obligations.DecodeReadsWhatEncodeWrites := by
  intro m i rest hv hw
  rw [encode, List.cons_append, List.cons_append, List.cons_append, List.nil_append, decodeWords_cons,
    decode_opcodeWord hv hw]

/-! ### Encoding what the decoder reads -/

/-- R64: an opcode word is its six flag bits and its cleaned opcode put together. -/
theorem opcodeWord_of_fields (op raw0 raw1 : Word) :
    opcodeWord (decodeOperand0 op raw0) (decodeOperand1 op raw1) (cleanedOpcode op) = op := by
  ext k hk
  simp only [opcodeWord, decodeOperand0, decodeOperand1, cleanedOpcode, ← BitVec.getLsbD_eq_getElem hk,
    BitVec.getLsbD_append, BitVec.getLsbD_ofBool, BitVec.getLsbD_extractLsb']
  interval_cases k <;> simp

theorem OpcodeMap.kind_of_inMath {m : OpcodeMap} {opc : BitVec 10} (h : m.inMath opc = true) :
    m.fullRanges = true ∨ opc.extractLsb' 0 4 ∈ m.aluKinds := by
  rw [inMath, Bool.and_eq_true, Bool.or_eq_true, List.contains_iff_mem] at h
  exact h.2

theorem OpcodeMap.kind_of_inJump {m : OpcodeMap} {opc : BitVec 10} (h : m.inJump opc = true) :
    m.fullRanges = true ∨ opc.extractLsb' 0 4 ∈ m.cmpKinds := by
  rw [inJump, Bool.and_eq_true, Bool.or_eq_true, List.contains_iff_mem] at h
  exact h.2

theorem decode_wf (m : OpcodeMap) (op raw0 raw1 : Word) : (decode m op raw0 raw1).wf m = true := by
  have hclass := classOf_eq m (cleanedOpcode op)
  split_ifs at hclass with hmath hjump hmove hint
  · rw [decode_of_math hclass]
    exact OpcodeMap.aluOp_instr_wf (OpcodeMap.kind_of_inMath hmath) _ _
  · rw [decode_of_jump hclass]
    exact OpcodeMap.cmpOp_instr_wf (OpcodeMap.kind_of_inJump hjump) _ _
  · rw [decode_of_move hclass, Instr.wf]
  · rw [decode_of_interrupt hclass, Instr.wf]
  · rw [decode_of_unknown hclass, Instr.wf]
    simp [OpcodeMap.isUnknown, hmath, hjump, hmove, hint]

/-- Settles O2: the decoded instruction carries the words' fields, which put together are the words. -/
theorem encodeWritesWhatDecodeReads : Obligations.EncodeWritesWhatDecodeReads := by
  refine fun m op raw0 raw1 => ⟨?_, decode_wf m op raw0 raw1⟩
  obtain ⟨hoperand0, hoperand1, hopcode⟩ := decode_carries m op raw0 raw1
  rw [encode, hoperand0, hoperand1, hopcode, opcodeWord_of_fields]
  rfl

/-! ### The fields of the cleaned opcode, and the default opcode values -/

/-- R71: the class's field `OPC[9:4]` of an opcode word. -/
@[simp] theorem cleanedOpcode_high (op : Word) : (cleanedOpcode op).extractLsb' 4 6 = op.extractLsb' 4 6 := by
  rw [cleanedOpcode, BitVec.extractLsb'_extractLsb'_of_le (by decide)]

/-- R71: the kind's field `OPC[3:0]` of an opcode word. -/
@[simp] theorem cleanedOpcode_low (op : Word) : (cleanedOpcode op).extractLsb' 0 4 = op.extractLsb' 0 4 := by
  rw [cleanedOpcode, BitVec.extractLsb'_extractLsb'_of_le (by decide)]

theorem high_append_low_inj {high high' : BitVec 6} {low low' : BitVec 4} :
    (high ++ low : BitVec 10) = high' ++ low' ↔ high = high' ∧ low = low' := by
  refine ⟨fun h => ⟨?_, ?_⟩, fun ⟨hhigh, hlow⟩ => by rw [hhigh, hlow]⟩
  · simpa using congrArg (BitVec.extractLsb' 4 6) h
  · simpa using congrArg (BitVec.extractLsb' 0 4) h

theorem OpcodeMap.inMath_of_fullRanges {m : OpcodeMap} (hfull : m.fullRanges = true) (opc : BitVec 10) :
    m.inMath opc = true ↔ opc.extractLsb' 4 6 = m.mathHigh := by
  simp [inMath, hfull]

theorem OpcodeMap.inJump_of_fullRanges {m : OpcodeMap} (hfull : m.fullRanges = true) (opc : BitVec 10) :
    m.inJump opc = true ↔ opc.extractLsb' 4 6 = m.jumpHigh := by
  simp [inJump, hfull]

/-- R70, D4: with the default opcode values the class follows from the two fields. -/
theorem classOf_standard_append (high : BitVec 6) (low : BitVec 4) :
    classOf .standard (high ++ low) =
      if high = 0 then .math
      else if high = 1 then .jump
      else if high = 2 ∧ low = 0 then .move
      else if high = 4 ∧ low = 0 then .interrupt
      else .unknown := by
  have hmove : OpcodeMap.standard.move = (2 : BitVec 6) ++ (0 : BitVec 4) := rfl
  have hint : OpcodeMap.standard.int = (4 : BitVec 6) ++ (0 : BitVec 4) := rfl
  simp only [classOf_eq, OpcodeMap.inMath_of_fullRanges (m := .standard) rfl,
    OpcodeMap.inJump_of_fullRanges (m := .standard) rfl, high_append, hmove, hint, high_append_low_inj]
  rfl

theorem classOf_standard (op : Word) :
    classOf .standard (cleanedOpcode op) =
      if op.extractLsb' 4 6 = 0 then .math
      else if op.extractLsb' 4 6 = 1 then .jump
      else if op.extractLsb' 4 6 = 2 ∧ op.extractLsb' 0 4 = 0 then .move
      else if op.extractLsb' 4 6 = 4 ∧ op.extractLsb' 0 4 = 0 then .interrupt
      else .unknown := by
  rw [← append_high_low (cleanedOpcode op), classOf_standard_append, cleanedOpcode_high, cleanedOpcode_low]

/-- R70: under a numbering with full ranges, each class is its field or its value. -/
theorem classOf_iff {m : OpcodeMap} (hv : m.valid) (hfull : m.fullRanges = true) (opc : BitVec 10) :
    (classOf m opc = .math ↔ opc.extractLsb' 4 6 = m.mathHigh) ∧
    (classOf m opc = .jump ↔ opc.extractLsb' 4 6 = m.jumpHigh) ∧
    (classOf m opc = .move ↔ opc = m.move) ∧
    (classOf m opc = .interrupt ↔ opc = m.int) := by
  obtain ⟨-, -, hdistinct, hmoveInt, hmathMove, hmathInt, hjumpMove, hjumpInt⟩ := hv
  have hmath : m.inMath opc = true → opc ≠ m.move ∧ opc ≠ m.int :=
    fun h => ⟨fun hopc => by simp [hopc, hmathMove] at h, fun hopc => by simp [hopc, hmathInt] at h⟩
  have hjump : m.inJump opc = true → opc ≠ m.move ∧ opc ≠ m.int :=
    fun h => ⟨fun hopc => by simp [hopc, hjumpMove] at h, fun hopc => by simp [hopc, hjumpInt] at h⟩
  rw [← OpcodeMap.inMath_of_fullRanges hfull, ← OpcodeMap.inJump_of_fullRanges hfull, classOf_eq]
  have hdisjoint : ¬ (m.inMath opc = true ∧ m.inJump opc = true) := by
    rw [OpcodeMap.inMath_of_fullRanges hfull, OpcodeMap.inJump_of_fullRanges hfull]
    rintro ⟨hhigh, hhigh'⟩
    exact hdistinct (hhigh.symm.trans hhigh')
  split_ifs <;> simp_all

/-- Settles O5: the class is the one of the cleaned opcode, read off its two fields; with the default values the fields
are quotient and remainder of n by 16. -/
theorem handlerClassOfTheOpcode : Obligations.HandlerClassOfTheOpcode := by
  refine ⟨fun m op raw0 raw1 hv hfull => ?_, fun op raw0 raw1 => ?_⟩
  · rw [decode_cls, ← cleanedOpcode_high]
    exact classOf_iff hv hfull (cleanedOpcode op)
  · have hhigh : (op.extractLsb' 4 6).toNat = op.toNat % 1024 / 16 := by
      rw [BitVec.extractLsb'_toNat, Nat.shiftRight_eq_div_pow]
      omega
    have hlow : (op.extractLsb' 0 4).toNat = op.toNat % 1024 % 16 := by
      rw [BitVec.extractLsb'_toNat, Nat.shiftRight_eq_div_pow]
      omega
    simp only [decode_cls, classOf_standard, BitVec.toNat_eq, hhigh, hlow, BitVec.ofNat_eq_ofNat, BitVec.toNat_ofNat]
    generalize op.toNat % 1024 = n
    split_ifs <;> simp <;> omega

/-! ### The opcode table -/

/-- R69: the rows that match the two fields of a cleaned opcode. -/
def rowsOfFields (high : BitVec 6) (low : BitVec 4) : List OpcodeRow :=
  opcodeRows.filter fun r =>
    high == r.pattern.extractLsb' 4 6 && (low &&& r.mask.extractLsb' 0 4 == r.pattern.extractLsb' 0 4)

/-- Words are equal when their flag field, their class's field and their kind's field are. -/
theorem word_eq_iff_fields {v w : Word} :
    v = w ↔ v.extractLsb' 10 6 = w.extractLsb' 10 6 ∧ v.extractLsb' 4 6 = w.extractLsb' 4 6 ∧
      v.extractLsb' 0 4 = w.extractLsb' 0 4 := by
  refine ⟨fun h => by simp [h], fun ⟨hflags, hhigh, hlow⟩ => ?_⟩
  rw [BitVec.toNat_eq, BitVec.extractLsb'_toNat, BitVec.extractLsb'_toNat, Nat.shiftRight_eq_div_pow,
    Nat.shiftRight_eq_div_pow] at hflags hhigh hlow
  have hv := v.isLt
  have hw := w.isLt
  rw [BitVec.toNat_eq]
  omega

/-- Every row asks for the whole class's field and for no flag bit, so the two fields decide which rows match. -/
theorem matchingRows_eq (op : Word) : matchingRows op = rowsOfFields (op.extractLsb' 4 6) (op.extractLsb' 0 4) := by
  have hrows : ∀ r ∈ opcodeRows, r.mask.extractLsb' 10 6 = 0 ∧ r.pattern.extractLsb' 10 6 = 0 ∧
      r.mask.extractLsb' 4 6 = BitVec.allOnes 6 := by decide
  refine List.filter_congr fun r hr => ?_
  obtain ⟨hmaskFlags, hpatternFlags, hmaskHigh⟩ := hrows r hr
  have hhigh : op.extractLsb' 4 6 &&& r.mask.extractLsb' 4 6 = op.extractLsb' 4 6 := by
    rw [hmaskHigh, BitVec.and_allOnes]
  rw [Bool.eq_iff_iff]
  simp [word_eq_iff_fields (v := op &&& r.mask), BitVec.extractLsb'_and, hmaskFlags, hpatternFlags, hhigh]

/-- The mnemonic is the operation's, whatever the operands. -/
theorem AluOp.mnemonic_instr (o : AluOp) (a b c d : Operand) : (o.instr a b).mnemonic = (o.instr c d).mnemonic := by
  cases o
  case reserved kind => simp only [AluOp.instr]; split <;> rfl
  all_goals rfl

/-- The mnemonic is the comparison's, whatever the operands. -/
theorem CmpOp.mnemonic_instr (o : CmpOp) (a b c d : Operand) : (o.instr a b).mnemonic = (o.instr c d).mnemonic := by
  cases o
  case reserved kind => simp only [CmpOp.instr]; split_ifs <;> rfl
  all_goals rfl

theorem rowsOfFields_math (low : BitVec 4) (a b : Operand) :
    (rowsOfFields 0 low).map OpcodeRow.mnemonic = [((OpcodeMap.standard.aluOp low).instr a b).mnemonic] := by
  rw [AluOp.mnemonic_instr _ a b (.direct 0) (.direct 0)]
  decide +revert

theorem rowsOfFields_jump (low : BitVec 4) (a b : Operand) :
    (rowsOfFields 1 low).map OpcodeRow.mnemonic = [((OpcodeMap.standard.cmpOp low).instr a b).mnemonic] := by
  rw [CmpOp.mnemonic_instr _ a b (.direct 0) (.direct 0)]
  decide +revert

theorem rowsOfFields_move : (rowsOfFields 2 0).map OpcodeRow.mnemonic = ["MOVE"] := by decide

theorem rowsOfFields_interrupt : (rowsOfFields 4 0).map OpcodeRow.mnemonic = ["INT"] := by decide

/-- Outside the ranges of math and jumps, no row matches but those of MOVE and INT. -/
theorem rowsOfFields_unknown {high : BitVec 6} {low : BitVec 4} (hmath : high ≠ 0) (hjump : high ≠ 1)
    (hmove : ¬ (high = 2 ∧ low = 0)) (hint : ¬ (high = 4 ∧ low = 0)) : rowsOfFields high low = [] := by
  have hrows : ∀ r ∈ opcodeRows, r.pattern.extractLsb' 4 6 = 0 ∨ r.pattern.extractLsb' 4 6 = 1 ∨
      r.mask.extractLsb' 0 4 = BitVec.allOnes 4 ∧ r.pattern.extractLsb' 0 4 = 0 ∧
        (r.pattern.extractLsb' 4 6 = 2 ∨ r.pattern.extractLsb' 4 6 = 4) := by decide
  refine List.filter_eq_nil_iff.2 fun r hr hmatch => ?_
  obtain ⟨rfl, hlow⟩ := by simpa using hmatch
  rcases hrows r hr with h0 | h1 | ⟨hmask, hpattern, hvalue⟩
  · exact hmath h0
  · exact hjump h1
  · rw [hmask, hpattern, BitVec.and_allOnes] at hlow
    exact hvalue.elim (fun h2 => hmove ⟨h2, hlow⟩) fun h4 => hint ⟨h4, hlow⟩

/-- Settles O4, by the class of the two fields: one row's mnemonic in each known class, no row in the unknown one. -/
theorem opcodeTableGivesTheInstruction : Obligations.OpcodeTableGivesTheInstruction := by
  intro op raw0 raw1
  have hclass := classOf_standard op
  rw [matchingRows_eq, decode_cls]
  split_ifs at hclass with hmath hjump hmove hint
  · rw [decode_of_math hclass, hclass, if_neg nofun, hmath, rowsOfFields_math, cleanedOpcode_low]
  · rw [decode_of_jump hclass, hclass, if_neg nofun, hjump, rowsOfFields_jump, cleanedOpcode_low]
  · rw [decode_of_move hclass, hclass, if_neg nofun, hmove.1, hmove.2, rowsOfFields_move, Instr.mnemonic]
  · rw [decode_of_interrupt hclass, hclass, if_neg nofun, hint.1, hint.2, rowsOfFields_interrupt, Instr.mnemonic]
  · rw [hclass, if_pos rfl, rowsOfFields_unknown hmath hjump hmove hint, List.map_nil]

/-- Settles O6, by running the decoder on each triple. -/
theorem sampleWordsDecode : Obligations.SampleWordsDecode := by
  unfold Obligations.SampleWordsDecode
  decide

end Sys2Proof

/-! Memory and the stack (spec/20_memory.md, R36 to R48): the walk in both directions, a word after a write, the linear
address, pushes and pops one by one and many in a row, and the obligations about them. -/

namespace Sys2Proof.Machine

/-! ### The walk -/

/-- R36: the walk from block number `n` on finds block `k` further when the address is the sizes before it plus an
offset in it. -/
theorem resolveFrom_totalSize_take {bs : List Block} {b : Block} {n k r : Nat} (hb : bs[k]? = some b)
    (hr : r < blockSize b) : resolveFrom n bs (totalSize (bs.take k) + r) = some (n + k, r) := by
  induction bs generalizing n k with
  | nil => cases hb
  | cons c bs ih =>
    cases k with
    | zero =>
      obtain rfl : c = b := by simpa using hb
      simp [resolveFrom, totalSize, hr]
    | succ k =>
      have hsize : totalSize ((c :: bs).take (k + 1)) = blockSize c + totalSize (bs.take k) := by simp [totalSize]
      have hrest : blockSize c + totalSize (bs.take k) + r - blockSize c = totalSize (bs.take k) + r := by omega
      rw [hsize, resolveFrom, if_neg (by omega), hrest, ih hb]
      congr 2
      omega

theorem resolve_eq_some_iff {bs : List Block} {addr k r : Nat} :
    resolve bs addr = some (k, r) ↔
      ∃ b, bs[k]? = some b ∧ r < blockSize b ∧ addr = totalSize (bs.take k) + r := by
  refine ⟨resolve_eq_some, ?_⟩
  rintro ⟨b, hb, hr, rfl⟩
  rw [resolve, resolveFrom_totalSize_take hb hr, Nat.zero_add]

/-- Settles O10: the walk's two lemmas. -/
theorem mapperWalkFindsTheBlock : Obligations.MapperWalkFindsTheBlock :=
  fun _ _ => ⟨fun _ _ => resolve_eq_some_iff, resolve_eq_none⟩

/-! ### Words after reads and writes -/

/-- R37, R41: the value of a read is the word there; 0 at a negative address, which no block covers. -/
theorem memRead_fst (addr : Int) (s : State) :
    (memRead addr s).1 = if 0 ≤ addr then s.wordAt addr.toNat else 0 := by
  cases addr with
  | ofNat a =>
    rw [if_pos (show 0 ≤ Int.ofNat a from Int.natCast_nonneg a)]
    rcases memRead_cases (Int.ofNat a) s with ⟨p, -, e⟩ | ⟨hnone, e⟩
    · rw [e]
    · rw [e]
      exact (wordAt_uncovered (resolve_eq_none.1 hnone)).symm
  | negSucc a =>
    rw [if_neg (by omega)]
    rfl

/-- R38, R39: a word after a write is the value written where the write is to it and its block may be written, and
else what it was. -/
theorem wordAt_memWrite {s : State} (hwf : Memory.wf s) (addr : Int) (v : Word) (a : Nat) :
    (memWrite addr v s).wordAt a =
      if (a : Int) = addr ∧ writableAt s.cfg.blocks a = true then v else s.wordAt a := by
  rcases memWrite_cases addr v s with ⟨k, r, h, hw, e⟩ | ⟨k, r, h, hro, e⟩ | ⟨hnone, e⟩ <;> rw [e]
  · have hfound := resolve_toNat h
    have hnonneg : 0 ≤ addr := by
      cases addr with
      | ofNat a => exact Int.natCast_nonneg a
      | negSucc a => cases h
    by_cases ha : a = addr.toNat
    · subst ha
      rw [wordAt_storeWord_same hwf (lt_totalSize_of_resolve hfound), if_pos]
      exact ⟨Int.toNat_of_nonneg hnonneg, by rw [writableAt_of_resolve hfound, hw]; rfl⟩
    · rw [wordAt_storeWord_ne ha, if_neg (by omega)]
  · rw [if_neg]
    rintro ⟨rfl, hw⟩
    rw [writableAt_of_resolve h, hro] at hw
    cases hw
  · rw [if_neg]
    · rfl
    · rintro ⟨rfl, hw⟩
      rw [resolveInt_ofNat] at hnone
      simp [writableAt, hnone] at hw

/-! ### The linear address -/

/-- R41: without `ADDR_SIGNED`, bank and offset are the two halves of a 32-bit number. -/
theorem linAddr_unsigned {s : State} (h : s.cfg.addrSigned = false) (offset : Word) :
    linAddr s offset = ((s.mbe ++ offset : BitVec 32).toNat : Int) := by
  have hoffset := offset.isLt
  rw [linAddr, h, BitVec.toNat_append, ← Nat.shiftLeft_add_eq_or_of_lt hoffset, Nat.shiftLeft_eq]
  push_cast
  rfl

theorem linAddr_signed {s : State} (h : s.cfg.addrSigned = true) (offset : Word) :
    linAddr s offset = s.mbe.toInt * 65536 + offset.toInt := by
  rw [linAddr, if_pos h]

/-- R41: no block covers a negative address. -/
theorem resolveInt_of_neg {bs : List Block} {addr : Int} (h : addr < 0) : resolveInt bs addr = none := by
  cases addr with
  | ofNat a => exact absurd h (Int.not_lt.2 (Int.natCast_nonneg a))
  | negSucc a => rfl

/-- Settles O16: the two readings of bank and offset, and the walk that never finds a negative address. -/
theorem linearAddressOfBankAndOffset : Obligations.LinearAddressOfBankAndOffset := by
  refine fun s offset v => ⟨fun h => linAddr_unsigned h offset, fun h => linAddr_signed h offset, fun hneg => ?_⟩
  have hnone := resolveInt_of_neg (bs := s.cfg.blocks) hneg
  simp only [memRead, memWrite, hnone, and_self]

/-! ### One push, one pop -/

theorem u16_lt (w : Word) : u16 w < 65536 := w.isLt

theorem u16_add_ofNat (w : Word) (n : Nat) : u16 (w + BitVec.ofNat 16 n) = (u16 w + n) % 65536 := by simp

theorem stackPush_of_inside {s : State} (v : Word) (h : u16 s.sp < s.cfg.stackSize) :
    stackPush v s = { s with stack := cellSet 0 (u16 s.sp) v s.stack, sp := s.sp + 1 } := by
  rcases stackPush_cases v s with ⟨-, e⟩ | ⟨hout, -⟩
  · exact e
  · omega

theorem stackPush_of_outside {s : State} (v : Word) (h : s.cfg.stackSize ≤ u16 s.sp) :
    stackPush v s = { s with sp := s.sp + 1, reports := s.reports ++ [.stackOobWrite s.sp] } := by
  rcases stackPush_cases v s with ⟨hin, -⟩ | ⟨-, e⟩
  · omega
  · exact e

theorem stackPop_of_inside {s : State} (h : u16 (s.sp - 1) < s.cfg.stackSize) :
    stackPop s = (s.stackAt (u16 (s.sp - 1)), { s with sp := s.sp - 1 }) := by
  rcases stackPop_cases s with ⟨-, e⟩ | ⟨hout, -⟩
  · exact e
  · omega

theorem stackPop_of_outside {s : State} (h : s.cfg.stackSize ≤ u16 (s.sp - 1)) :
    stackPop s = (0, { s with sp := s.sp - 1, reports := s.reports ++ [.stackOobRead (s.sp - 1)] }) := by
  rcases stackPop_cases s with ⟨hin, -⟩ | ⟨-, e⟩
  · omega
  · exact e

@[simp] theorem stackPush_sp (v : Word) (s : State) : (stackPush v s).sp = s.sp + 1 := by
  rcases stackPush_cases v s with ⟨-, e⟩ | ⟨-, e⟩ <;> rw [e]

@[simp] theorem stackPush_cfg (v : Word) (s : State) : (stackPush v s).cfg = s.cfg := by
  rcases stackPush_cases v s with ⟨-, e⟩ | ⟨-, e⟩ <;> rw [e]

@[simp] theorem stackPop_sp (s : State) : (stackPop s).2.sp = s.sp - 1 := by rw [stackPop_state]

/-- A pop leaves the words of the stack block alone. -/
@[simp] theorem stackAt_stackPop (s : State) (i : Nat) : (stackPop s).2.stackAt i = s.stackAt i := by
  rw [stackPop_state]
  rfl

/-- R46, R47: a pop gives the word below SP; beyond the block that is 0, as the stack block reads there. -/
theorem stackPop_fst (s : State) : (stackPop s).1 = s.stackAt (u16 (s.sp - 1)) := by
  rcases stackPop_cases s with ⟨-, e⟩ | ⟨hout, e⟩ <;> rw [e]
  rw [State.stackAt, if_neg (by omega)]

/-- R45: a push in bounds stores its word at SP. -/
theorem stackAt_stackPush_same {s : State} (v : Word) (hwf : Stack.wf s) (h : u16 s.sp < s.cfg.stackSize) :
    (stackPush v s).stackAt (u16 s.sp) = v := by
  obtain ⟨hrising, -⟩ := hwf
  rw [stackPush_of_inside v h, State.stackAt, if_pos h]
  exact cellGet_cellSet_same hrising

/-- R45: a push leaves the other words of the stack block alone, in bounds or not. -/
theorem stackAt_stackPush_ne {s : State} (v : Word) {i : Nat} (hi : i ≠ u16 s.sp) :
    (stackPush v s).stackAt i = s.stackAt i := by
  rcases stackPush_cases v s with ⟨-, e⟩ | ⟨-, e⟩ <;> rw [e]
  · simp only [State.stackAt, cellGet_cellSet_ne hi]
  · rfl

/-- Settles O17, by the two outcomes of a push and the two of a pop. -/
theorem stackAccessRules : Obligations.StackAccessRules := by
  refine fun s v hwf => ⟨fun hin => ?_, stackPush_of_outside v, stackPop_of_inside, stackPop_of_outside⟩
  refine ⟨stackAt_stackPush_same v hwf hin, fun i hi => stackAt_stackPush_ne v hi, ?_⟩
  rw [stackPush_of_inside v hin]

/-! ### Many pushes, many pops -/

/-- The words of the stack block from an index on. -/
def stackSlice (s : State) (start count : Nat) : List Word := (List.range' start count).map s.stackAt

theorem stackSlice_congr {s t : State} (h : ∀ i, t.stackAt i = s.stackAt i) (start count : Nat) :
    stackSlice t start count = stackSlice s start count :=
  List.map_congr_left fun i _ => h i

theorem pushAll_sp (vs : List Word) (s : State) : (pushAll vs s).sp = s.sp + BitVec.ofNat 16 vs.length := by
  induction vs generalizing s with
  | nil => simp [pushAll]
  | cons v vs ih =>
    rw [pushAll, ih, stackPush_sp, List.length_cons, Nat.add_comm, BitVec.ofNat_add, BitVec.add_assoc]
    rfl

theorem popMany_sp (n : Nat) (s : State) : (popMany n s).2.sp = s.sp - BitVec.ofNat 16 n := by
  induction n generalizing s with
  | zero => simp [popMany]
  | succ n ih =>
    rw [popMany, ih, stackPop_sp, Nat.add_comm, BitVec.ofNat_add, BitVec.sub_sub]
    rfl

/-- R48: N pops give the N words below SP, the highest first, while SP does not wrap. -/
theorem popMany_fst {n : Nat} {s : State} (h : n ≤ u16 s.sp) :
    (popMany n s).1 = (stackSlice s (u16 s.sp - n) n).reverse := by
  induction n generalizing s with
  | zero => rfl
  | succ n ih =>
    have hbelow : u16 (s.sp - 1) = u16 s.sp - 1 := by
      have hlt := u16_lt s.sp
      rw [u16_sub_one]
      omega
    have hstart : u16 s.sp - 1 - n = u16 s.sp - (n + 1) := by omega
    have hlast : u16 s.sp - (n + 1) + 1 * n = u16 s.sp - 1 := by omega
    simp only [popMany]
    rw [ih (by rw [stackPop_sp, hbelow]; omega), stackSlice_congr (stackAt_stackPop s), stackPop_fst, stackPop_sp,
      hbelow, hstart, stackSlice, stackSlice, List.range'_concat, List.map_append, List.reverse_append, hlast]
    rfl

/-- Pushes leave the words below the stack pointer alone, while SP does not wrap. -/
theorem stackAt_pushAll_of_lt {vs : List Word} {s : State} {i : Nat} (hi : i < u16 s.sp)
    (h : u16 s.sp + vs.length ≤ 65535) : (pushAll vs s).stackAt i = s.stackAt i := by
  induction vs generalizing s with
  | nil => rfl
  | cons v vs ih =>
    rw [List.length_cons] at h
    have habove : u16 (s.sp + 1) = u16 s.sp + 1 := by rw [u16_add_one]; omega
    rw [pushAll, ih (by rw [stackPush_sp]; omega) (by rw [stackPush_sp]; omega), stackAt_stackPush_ne v (by omega)]

/-- R48: N pushes in bounds leave their words, in order, from the old SP on. -/
theorem stackSlice_pushAll {vs : List Word} {s : State} (hwf : Stack.wf s) (hsize : s.cfg.stackSize ≤ 65535)
    (h : u16 s.sp + vs.length ≤ s.cfg.stackSize) :
    stackSlice (pushAll vs s) (u16 s.sp) vs.length = vs := by
  induction vs generalizing s with
  | nil => rfl
  | cons v vs ih =>
    rw [List.length_cons] at h
    have habove : u16 (stackPush v s).sp = u16 s.sp + 1 := by rw [stackPush_sp, u16_add_one]; omega
    have hfirst : (pushAll vs (stackPush v s)).stackAt (u16 s.sp) = v := by
      rw [stackAt_pushAll_of_lt (by omega) (by omega), stackAt_stackPush_same v hwf (by omega)]
    have hrest := ih (s := stackPush v s) (stackPush_wf hwf) (by rwa [stackPush_cfg])
      (by rw [stackPush_cfg]; omega)
    rw [habove] at hrest
    rw [List.length_cons, stackSlice, List.range'_succ, List.map_cons]
    exact congrArg₂ List.cons hfirst hrest

/-- In a stack block of at most 32768 words, pushes at in-bounds indexes never wrap: they end inside the block. -/
theorem push_indexes_no_wrap {sp : Word} {n size : Nat} (hsize : size ≤ 32768) (hn : 0 < n)
    (h : ∀ k < n, u16 (sp + BitVec.ofNat 16 k) < size) : u16 sp + n ≤ size := by
  simp only [u16_add_ofNat] at h
  have hfirst := h 0 hn
  have hlt := u16_lt sp
  by_contra hbeyond
  have hat := h (size - u16 sp) (by omega)
  omega

/-- Settles O18: SP goes up by N and down by N; the pops read the slice that the pushes wrote, from its end. -/
theorem stackRoundTrip : Obligations.StackRoundTrip := by
  refine fun vs s => ⟨?_, fun hsize hwf hinside => ?_⟩
  · rw [popMany_sp, pushAll_sp, BitVec.add_sub_cancel]
  · rcases vs.eq_nil_or_concat with rfl | ⟨_, _, hvs⟩
    · rfl
    have hroom := push_indexes_no_wrap hsize (by simp [hvs]) hinside
    have hend : u16 (pushAll vs s).sp = u16 s.sp + vs.length := by
      rw [pushAll_sp, u16_add_ofNat]
      omega
    rw [popMany_fst (by omega), hend, Nat.add_sub_cancel, stackSlice_pushAll hwf (by omega) hroom]

/-! ### The invariant -/

/-- Settles O56: a service leaves the contents alone, and an instruction writes by its destination at most. -/
theorem stepKeepsTheInvariant : Obligations.StepKeepsTheInvariant :=
  fun _ _ => step_inv

/-- Settles O55: after reset no cell is listed. -/
theorem resetIsSound : Obligations.ResetIsSound := by
  intro cfg
  simp [State.Inv, Memory.wf, Stack.wf, Cells.wf, State.resetWith]

end Sys2Proof.Machine

/-! The math and the jump class (spec/41_math.md, spec/42_jump.md): division, shifts and logic on words, and the
obligations about each instruction's result. -/

namespace Sys2Proof.Machine

/-! ### Words as the ALU's arithmetic gives them -/

theorem truncRem_eq_tmod (a b : Word) : truncRem a b = (s16 a).tmod (s16 b) := by
  have hdivision := Int.tmod_add_tdiv_mul (s16 a) (s16 b)
  rw [truncRem, truncQuot]
  omega

theorem truncQuot_mul_add_truncRem (a b : Word) : s16 a = truncQuot a b * s16 b + truncRem a b := by
  rw [truncRem]
  omega

theorem abs_truncRem_lt (a : Word) {b : Word} (hb : b ≠ 0) : |truncRem a b| < |s16 b| := by
  have hb0 : s16 b ≠ 0 := fun h => hb (BitVec.eq_of_toInt_eq h)
  rw [truncRem_eq_tmod, ← Int.natCast_natAbs, ← Int.natCast_natAbs, Int.natAbs_tmod]
  exact_mod_cast Nat.mod_lt _ (Int.natAbs_pos.2 hb0)

/-- R90: the remainder of the division toward zero has the dividend's sign, or is 0. -/
theorem truncRem_mul_nonneg (a b : Word) : 0 ≤ truncRem a b * s16 a := by
  rw [truncRem_eq_tmod]
  rcases Int.le_total 0 (s16 a) with ha | ha
  · exact Int.mul_nonneg (Int.tmod_nonneg _ ha) ha
  · have hneg : 0 ≤ (-s16 a).tmod (s16 b) := Int.tmod_nonneg _ (by omega)
    rw [Int.neg_tmod] at hneg
    exact Int.mul_nonneg_of_nonpos_of_nonpos (by omega) ha

/-- R90: the ALU's left shift is the shift of the word. -/
theorem aluShl_eq (cfg : Config) (a b : Word) : aluShl cfg a b = (a <<< shiftCount cfg b, 0) := by
  have hshift : trunc16 ((u16 a : Int) * 2 ^ shiftCount cfg b) = a <<< shiftCount cfg b := by
    rw [trunc16, show (u16 a : Int) * 2 ^ shiftCount cfg b = ((u16 a * 2 ^ shiftCount cfg b : Nat) : Int) by
      push_cast; rfl, BitVec.ofInt_natCast, ← Nat.shiftLeft_eq]
    rfl
  rw [aluShl, hshift]

/-- R90, D6: the ALU's arithmetic right shift is the sign-filling shift of the word. -/
theorem aluShr_of_arithmetic {cfg : Config} (h : cfg.shrKind = .arithmetic) (a b : Word) :
    aluShr cfg a b = (a.sshiftRight (shiftCount cfg b), 0) := by
  have hpow : (0 : Int) ≤ 2 ^ shiftCount cfg b := by positivity
  simp only [aluShr, h]
  rw [Int.fdiv_eq_ediv_of_nonneg _ hpow, BitVec.sshiftRight, Int.shiftRight_eq_div_pow]
  push_cast
  rfl

/-- R90, D6: the ALU's logical right shift is the zero-filling shift of the word. -/
theorem aluShr_of_logical {cfg : Config} (h : cfg.shrKind = .logical) (a b : Word) :
    aluShr cfg a b = (a >>> shiftCount cfg b, 0) := by
  simp only [aluShr, h]
  rw [trunc16, BitVec.ofInt_natCast, ← Nat.shiftRight_eq_div_pow, ← BitVec.toNat_ushiftRight, BitVec.ofNat_toNat,
    BitVec.setWidth_eq]

/-! ### The math instructions -/

/-- Settles O23: both operands pass through, or for NOOP the first and 0; a reserved operation adds its report. -/
theorem passThroughOperations : Obligations.PassThroughOperations := by
  refine fun a b kind s => ⟨fun h => ?_, fun h => ?_, ?_, ?_⟩
  · exact mathClass_of_operate (o := .noop) (rep := none) (by simp only [operate, aluNoop, h])
  · exact mathClass_of_operate (o := .noop) (rep := none) (by simp only [operate, aluNoop, h])
  · exact mathClass_of_operate (o := .reserved 11) (rep := some _) rfl
  · exact mathClass_of_operate (o := .reserved kind) (rep := some _) rfl

/-- A math instruction on two immediates, with its results and its FLAGS word named. -/
theorem mathClass_immediates {o : AluOp} {s : State} {x y p q w : Word} (ho : operate s.cfg o x y = ((p, q), none))
    (hw : (flagsByte x y p q).setWidth 16 = w) :
    mathClass o (.immediate x) (.immediate y) s = .next { s with acc0 := p, acc1 := q, flags := w } :=
  (mathClass_of_operate ho).trans (congrArg Host.Outcome.next (mathNext_eq hw))

/-- R93: a zero second result leaves the low three flag bits 0. -/
theorem flagsByte_low_of_zero (x y out0 : Word) : (flagsByte x y out0 0).extractLsb' 0 3 = 0 := by
  obtain ⟨hnonzero, hneg, hpos⟩ := flagsByte_output1_bits x y out0 0
  have hbits : ∀ k < 3, (flagsByte x y out0 0).getLsbD k = false := by
    intro k hk
    rw [Bool.eq_false_iff]
    interval_cases k
    · exact fun h => absurd (hpos.1 h) (by decide)
    · exact fun h => absurd (hneg.1 h) (by decide)
    · exact fun h => hnonzero.1 h rfl
  ext k hk
  simpa using hbits k hk

/-- Settles O24: the sum, the flag bits that the zero in ACC1 gives, and the rule's examples. -/
theorem addResult : Obligations.AddResult := by
  refine ⟨fun a b s => ?_, fun x y => flagsByte_low_of_zero x y (x + y), fun s => ⟨?_, ?_, ?_⟩⟩
  · exact mathClass_of_operate (o := .add) (rep := none) (by rw [operate, aluAdd, trunc16_add])
  all_goals exact mathClass_immediates (o := .add) rfl (by decide)

/-- Settles O25: the difference, and the rule's examples. -/
theorem subResult : Obligations.SubResult := by
  refine ⟨fun a b s => ?_, fun s => ⟨?_, ?_⟩⟩
  · exact mathClass_of_operate (o := .sub) (rep := none) (by rw [operate, aluSub, trunc16_sub])
  all_goals exact mathClass_immediates (o := .sub) rfl (by decide)

/-- Settles O26: the product, and the rule's examples. -/
theorem mulResult : Obligations.MulResult := by
  refine ⟨fun a b s => ?_, fun s => ⟨?_, ?_⟩⟩
  · exact mathClass_of_operate (o := .mul) (rep := none) (by rw [operate, aluMul, trunc16_mul])
  all_goals exact mathClass_immediates (o := .mul) rfl (by decide)

/-- Settles O27: the fixed results on a zero divisor; else the ALU's quotient and remainder, which meet the division
equation, the bound and the sign. -/
theorem divResult : Obligations.DivResult := by
  refine fun a b s => ⟨fun hzero => ?_, fun hb => ?_⟩
  · exact mathClass_of_operate (o := .div) (rep := none) (by rw [operate, aluDiv, if_pos hzero])
  · refine ⟨_, _, truncQuot_mul_add_truncRem _ _, abs_truncRem_lt _ hb, truncRem_mul_nonneg _ _, ?_⟩
    exact mathClass_of_operate (o := .div) (rep := none) (by rw [operate, aluDiv, if_neg hb])

/-- Settles O28, as DIV with the two results exchanged. -/
theorem modResult : Obligations.ModResult := by
  refine fun a b s => ⟨fun hzero => ?_, fun hb => ?_⟩
  · exact mathClass_of_operate (o := .mod) (rep := none) (by rw [operate, aluMod, if_pos hzero])
  · refine ⟨_, _, truncQuot_mul_add_truncRem _ _, abs_truncRem_lt _ hb, truncRem_mul_nonneg _ _, ?_⟩
    exact mathClass_of_operate (o := .mod) (rep := none) (by rw [operate, aluMod, if_neg hb])

/-- Settles O29: the three words are the bitwise operations of `BitVec`. -/
theorem logicResults : Obligations.LogicResults := by
  refine fun a b s => ⟨⟨_, fun k _ => BitVec.getLsbD_and, ?_⟩, ⟨_, fun k _ => BitVec.getLsbD_or, ?_⟩,
    ⟨_, fun k _ => BitVec.getLsbD_xor, ?_⟩⟩
  · exact mathClass_of_operate (o := .and) (rep := none) rfl
  · exact mathClass_of_operate (o := .or) (rep := none) rfl
  · exact mathClass_of_operate (o := .xor) (rep := none) rfl

/-- Settles O30: the word is the shift by the count, whose bits below the count are 0. -/
theorem shlResult : Obligations.ShlResult := by
  intro a b s
  refine ⟨_, fun k hk => ?_, mathClass_of_operate (o := .shl) (rep := none) (by rw [operate, aluShl_eq])⟩
  simp only [BitVec.getLsbD_shiftLeft, shiftCount, hk, decide_true, Bool.true_and, ← not_lt, decide_not]

/-- Settles O31, by the kind of shift: the bits beyond bit 15 are the sign bit or 0. -/
theorem shrResult : Obligations.ShrResult := by
  intro a b s
  cases hkind : s.cfg.shrKind with
  | arithmetic =>
    refine ⟨_, fun k hk => ?_,
      mathClass_of_operate (o := .shr) (rep := none) (by rw [operate, aluShr_of_arithmetic hkind])⟩
    rw [BitVec.getLsbD_sshiftRight, BitVec.msb_eq_getLsbD_last]
    simp [shiftCount, hk, Nat.add_comm k]
  | logical =>
    refine ⟨_, fun k hk => ?_,
      mathClass_of_operate (o := .shr) (rep := none) (by rw [operate, aluShr_of_logical hkind])⟩
    rw [BitVec.getLsbD_ushiftRight, Nat.add_comm]
    split
    · rfl
    next hout => exact BitVec.getLsbD_of_ge _ _ (Nat.le_of_not_lt hout)

/-! ### The jumps -/

/-- A jump on two immediates, with its outcome and its FLAGS word named. -/
theorem jumpClass_immediates {o : CmpOp} {s : State} {x y w : Word} {c : Bool} (ho : compare o x y = (c, none))
    (hw : (flagsByte x y x y).setWidth 16 = w) :
    jumpClass o (.immediate x) (.immediate y) s =
      .next { s with flags := w, ep := if c then s.r3 else s.ep } :=
  (jumpClass_of_compare ho).trans (congrArg Host.Outcome.next (jumpNext_eq hw))

/-- Settles O33: the comparison is false, and the report is of its kind. -/
theorem reservedComparisonsNeverJump : Obligations.ReservedComparisonsNeverJump :=
  fun _ _ kind _ =>
    ⟨jumpClass_of_compare (o := .reserved 5) (rep := some _) rfl,
      jumpClass_of_compare (o := .reserved kind) (rep := some _) rfl,
      jumpClass_of_compare (o := .reserved kind) (rep := some _) rfl⟩

/-- Settles O32: the five comparisons, and the rules' examples. -/
theorem jumpResults : Obligations.JumpResults := by
  refine ⟨fun a b s => ⟨?_, ?_, ?_, ?_, ?_⟩, fun s => ⟨?_, ?_, ?_, ?_, ?_⟩⟩
  · exact jumpClass_of_compare (o := .equal) (rep := none) rfl
  · exact jumpClass_of_compare (o := .less) (rep := none) rfl
  · exact jumpClass_of_compare (o := .lessOrEqual) (rep := none) rfl
  · exact jumpClass_of_compare (o := .greater) (rep := none) rfl
  · exact jumpClass_of_compare (o := .greaterOrEqual) (rep := none) rfl
  · exact jumpClass_immediates (o := .equal) (c := true) rfl (by decide)
  · exact jumpClass_immediates (o := .less) (c := false) rfl (by decide)
  · exact jumpClass_immediates (o := .lessOrEqual) (c := true) rfl (by decide)
  · exact jumpClass_immediates (o := .greater) (c := false) rfl (by decide)
  · exact jumpClass_immediates (o := .greaterOrEqual) (c := true) rfl (by decide)

/-! ### The ALU as the opcode's bits choose it -/

/-- R94: the math handler stores what the ALU answers. -/
theorem mathClass_eq_mathNext (o : AluOp) (a b : Operand) (s : State) :
    mathClass o a b s =
      let x := resolveSrc a s
      let y := resolveSrc b x.2
      let r := aluOperate s.cfg o x.1 y.1
      .next (mathNext (y.2.reportOpt r.report) r.primary r.secondary r.flags) := rfl

/-- R107: the jump handler writes the ALU's flags and goes by its comparison. -/
theorem jumpClass_eq_jumpNext (o : CmpOp) (a b : Operand) (s : State) :
    jumpClass o a b s =
      let x := resolveSrc a s
      let y := resolveSrc b x.2
      let r := aluCompare o x.1 y.1
      .next (jumpNext (y.2.reportOpt r.report) r.flags r.comparison) :=
  jumpClass_of_compare rfl

/-- The comparison request is bit 4 of the ALU's opcode input. -/
theorem getLsbD_request (request : BitVec 1) (kind : BitVec 4) :
    (request ++ kind : BitVec 5).getLsbD 4 = request.getLsbD 0 :=
  BitVec.getLsbD_append

theorem low_request_append (request : BitVec 1) (kind : BitVec 4) :
    (request ++ kind : BitVec 5).extractLsb' 0 4 = kind := BitVec.extractLsb'_append_eq_right ..

theorem exec_decode_of_math {s : State} {op raw0 raw1 : Word}
    (h : classOf s.cfg.opcodes (cleanedOpcode op) = .math) :
    exec (decode s.cfg.opcodes op raw0 raw1) s =
      mathClass (s.cfg.opcodes.aluOp (op.extractLsb' 0 4)) (decodeOperand0 op raw0) (decodeOperand1 op raw1) s := by
  rw [decode_of_math h, exec_aluOp_instr, cleanedOpcode_low]

theorem exec_decode_of_jump {s : State} {op raw0 raw1 : Word}
    (h : classOf s.cfg.opcodes (cleanedOpcode op) = .jump) :
    exec (decode s.cfg.opcodes op raw0 raw1) s =
      jumpClass (s.cfg.opcodes.cmpOp (op.extractLsb' 0 4)) (decodeOperand0 op raw0) (decodeOperand1 op raw1) s := by
  rw [decode_of_jump h, exec_cmpOp_instr, cleanedOpcode_low]

/-- R71: with the default opcode values the class's field of the math class is 0. -/
theorem high_of_standard_math {op : Word} (h : classOf .standard (cleanedOpcode op) = .math) :
    op.extractLsb' 4 6 = 0 := by
  rw [classOf_standard] at h
  split_ifs at h with hmath
  exact hmath

/-- R71: with the default opcode values the class's field of the jump class is 1. -/
theorem high_of_standard_jump {op : Word} (h : classOf .standard (cleanedOpcode op) = .jump) :
    op.extractLsb' 4 6 = 1 := by
  rw [classOf_standard] at h
  split_ifs at h with hmath hjump
  exact hjump

/-- The low five bits of an opcode word are the lowest bit of the class's field and the kind. -/
theorem extractLsb'_five (op : Word) :
    (op.extractLsb' 4 6).extractLsb' 0 1 ++ op.extractLsb' 0 4 = op.extractLsb' 0 5 := by
  ext k hk
  rw [BitVec.getElem_append]
  interval_cases k <;> simp

/-- Settles O59: the decoder looks the kind up, as the ALU does for the request bit of the class; with the default
values that bit is the lowest of the class's field. -/
theorem handlersRunTheAluOnTheOpcodeBits : Obligations.HandlersRunTheAluOnTheOpcodeBits := by
  intro s op raw0 raw1
  obtain ⟨hoperand0, hoperand1, -⟩ := decode_carries s.cfg.opcodes op raw0 raw1
  simp only [hoperand0, hoperand1, decode_cls]
  refine ⟨fun hmath => ?_, fun hjump => ?_, fun hstandard hmath => ?_, fun hstandard hjump => ?_⟩
  · rw [exec_decode_of_math hmath, mathClass_eq_mathNext, alu_operation (getLsbD_request _ _), low_request_append]
  · rw [exec_decode_of_jump hjump, jumpClass_eq_jumpNext, alu_comparison (getLsbD_request _ _), low_request_append]
  · rw [hstandard] at hmath
    rw [← extractLsb'_five, high_of_standard_math hmath]
    rfl
  · rw [hstandard] at hjump
    rw [← extractLsb'_five, high_of_standard_jump hjump]
    rfl

end Sys2Proof.Machine

/-! Operands, MOVE, INT and the unknown opcode (spec/40_cycle.md, spec/43_move.md, spec/44_interrupt.md): what a read
and a write of each register address do, what each operand mode resolves to, and the obligations about them. -/

namespace Sys2Proof.Machine

/-! ### Register addresses -/

section
variable {s : State} {raw : Word}

theorem regRead_of_cell {r : Reg} (h : regTarget s.cfg.regMap raw = some (.cell r)) :
    regRead raw s = (s.getReg r, s) := by
  simp only [regRead, h]

theorem regRead_of_stack (h : regTarget s.cfg.regMap raw = some .stack) : regRead raw s = stackPop s := by
  simp only [regRead, h]

/-- R80, D14: OUT and an address that names nothing read as 0 with a report. -/
theorem regRead_of_invalid (h : regTarget s.cfg.regMap raw = some .output ∨ regTarget s.cfg.regMap raw = none) :
    regRead raw s = (0, s.report (.regInvalidRead raw)) := by
  rcases h with h | h <;> simp only [regRead, h]

theorem regWrite_of_cell {r : Reg} (v : Word) (h : regTarget s.cfg.regMap raw = some (.cell r)) :
    regWrite raw v s = s.setReg r v := by
  simp only [regWrite, h]

theorem regWrite_of_stack (v : Word) (h : regTarget s.cfg.regMap raw = some .stack) :
    regWrite raw v s = stackPush v s := by
  simp only [regWrite, h]

/-- R81, D14: a write to IN or to an address that names nothing is dropped with a report. -/
theorem regWrite_of_invalid (v : Word)
    (h : regTarget s.cfg.regMap raw = some .input ∨ regTarget s.cfg.regMap raw = none) :
    regWrite raw v s = s.report (.regInvalidWrite raw) := by
  rcases h with h | h <;> simp only [regWrite, h]

end

/-- R20, D1: the default numbering ends at 13. -/
theorem regTarget_standard_of_ge {raw : Word} (h : 14 ≤ u16 raw) : regTarget .standard raw = none := by
  have hplaces : ∀ n ∈ RegisterMap.standard.addresses.map u16, n < 14 := by decide
  refine regTarget_eq_none.2 fun hmem => ?_
  have hlt := hplaces (u16 raw) (List.mem_map_of_mem hmem)
  omega

/-- Settles O8: each name's address names it, and reads and writes go by the name; then the default numbering. -/
theorem registerAddresses : Obligations.RegisterAddresses := by
  refine ⟨fun s v hv => ⟨fun r => ?_, ?_, ?_, ?_, fun raw hraw => ?_⟩, by decide, fun raw => regTarget_standard_of_ge⟩
  · exact ⟨regRead_of_cell (regTarget_addressOf hv _), regWrite_of_cell v (regTarget_addressOf hv _)⟩
  · exact ⟨regRead_of_stack (regTarget_addressOf hv .stack), regWrite_of_stack v (regTarget_addressOf hv .stack)⟩
  · exact ⟨regRead_of_input (regTarget_addressOf hv .input),
      regWrite_of_invalid v (.inl (regTarget_addressOf hv .input))⟩
  · exact ⟨regRead_of_invalid (.inl (regTarget_addressOf hv .output)),
      regWrite_of_output v (regTarget_addressOf hv .output)⟩
  · exact ⟨regRead_of_invalid (.inr (regTarget_eq_none.2 hraw)),
      regWrite_of_invalid v (.inr (regTarget_eq_none.2 hraw))⟩

/-! ### Operand modes -/

section
variable {o : Operand}

theorem srcMode_of_immediate (h : o.imm = true) : srcMode o = .immediate := if_pos h

theorem srcMode_of_pointer (hi : o.imm = false) (hp : o.ptr = true) : srcMode o = .pointer := by
  simp [srcMode, hi, hp]

theorem srcMode_of_memory (hi : o.imm = false) (hp : o.ptr = false) (hm : o.mem = true) : srcMode o = .memory := by
  simp [srcMode, hi, hp, hm]

theorem srcMode_of_direct (hi : o.imm = false) (hp : o.ptr = false) (hm : o.mem = false) : srcMode o = .direct := by
  simp [srcMode, hi, hp, hm]

/-- A direct source has no flag set, so as a destination it is direct too. -/
theorem dstMode_of_srcMode_direct (h : srcMode o = .direct) : dstMode o = .direct := by
  unfold srcMode at h
  unfold dstMode
  split_ifs at h ⊢
  rfl

theorem resolveSrc_of_immediate (h : srcMode o = .immediate) (s : State) : resolveSrc o s = (o.raw, s) := by
  simp only [resolveSrc, h]

theorem resolveSrc_of_pointer (h : srcMode o = .pointer) (s : State) :
    resolveSrc o s = memRead (linAddr (regRead o.raw s).2 (regRead o.raw s).1) (regRead o.raw s).2 := by
  simp only [resolveSrc, h]

theorem resolveSrc_of_memory (h : srcMode o = .memory) (s : State) :
    resolveSrc o s = memRead (linAddr s o.raw) s := by
  simp only [resolveSrc, h]

theorem resolveSrc_of_direct (h : srcMode o = .direct) (s : State) : resolveSrc o s = regRead o.raw s := by
  simp only [resolveSrc, h]

end

/-- A memory word that is not 0 is covered by a block, so its read is silent. -/
theorem memRead_of_wordAt_ne_zero {s : State} {addr : Nat} (h : s.wordAt addr ≠ 0) :
    memRead addr s = (s.wordAt addr, s) := by
  rcases memRead_cases addr s with ⟨p, -, e⟩ | ⟨hnone, -⟩
  · exact e
  · exact absurd (wordAt_uncovered (resolve_eq_none.1 hnone)) h

/-- R82, the rule's example: with bank 0, a pointer through a register that holds 0x0100 reads the word there. -/
theorem resolveSrc_pointer_example {o : Operand} {s : State} (hmode : srcMode o = .pointer)
    (hr : regTarget s.cfg.regMap o.raw = some (.cell .r1)) (hr1 : s.r1 = 0x0100) (hmbe : s.mbe = 0)
    (hword : s.wordAt 0x0100 = 0x1234) : resolveSrc o s = (0x1234, s) := by
  have haddr : linAddr s 0x0100 = (0x0100 : Nat) := by
    simp only [linAddr, hmbe]
    split <;> decide
  rw [resolveSrc_of_pointer hmode, regRead_of_cell hr, getReg_r1, hr1, haddr, memRead_of_wordAt_ne_zero, hword]
  rw [hword]
  decide

/-- Settles O7: the four modes in priority order; a pointer or a direct operand by what its address names. -/
theorem sourceOperandModes : Obligations.SourceOperandModes := by
  refine fun o s => ⟨fun hi => ?_, fun hi hp => ?_, fun hi hp hm => ?_, fun hi hp hm => ?_, fun hi hp ht => ?_,
    fun hi hp ht => ?_, fun hi hp ht => ?_, fun hi hp hm ht => ?_, fun hi hp ht hr1 hmbe hword => ?_⟩
  · exact resolveSrc_of_immediate (srcMode_of_immediate hi) s
  · exact resolveSrc_of_pointer (srcMode_of_pointer hi hp) s
  · exact resolveSrc_of_memory (srcMode_of_memory hi hp hm) s
  · exact resolveSrc_of_direct (srcMode_of_direct hi hp hm) s
  · rw [resolveSrc_of_pointer (srcMode_of_pointer hi hp), regRead_of_stack ht]
  · rw [resolveSrc_of_pointer (srcMode_of_pointer hi hp), regRead_of_input ht]
  · rw [resolveSrc_of_pointer (srcMode_of_pointer hi hp), regRead_of_invalid ht]
    rfl
  · rw [resolveSrc_of_direct (srcMode_of_direct hi hp hm), regRead_of_invalid ht]
  · exact resolveSrc_pointer_example (srcMode_of_pointer hi hp) ht hr1 hmbe hword

/-! ### MOVE by its destination's mode -/

section
variable {dst : Operand}

theorem exec_move_direct (h : dstMode dst = .direct) (src : Operand) (s : State) :
    exec (.move src dst) s = .next (regWrite dst.raw (resolveSrc src s).1 (resolveSrc src s).2) := by
  simp only [exec, execMove, resolveDst, h, writeDst]

theorem exec_move_memory (h : dstMode dst = .memory) (src : Operand) (s : State) :
    exec (.move src dst) s = .next (memWrite (linAddr s dst.raw) (resolveSrc src s).1 (resolveSrc src s).2) := by
  simp only [exec, execMove, resolveDst, h, writeDst]
  rw [linAddr_congr (resolveSrc_cfg src s) (resolveSrc_mbe src s)]

/-- R83, D12: the pointer step reads the register address after the source's resolution. -/
theorem exec_move_pointer (h : dstMode dst = .pointer) (src : Operand) (s : State) :
    exec (.move src dst) s =
      .next (memWrite (linAddr s (regRead dst.raw (resolveSrc src s).2).1) (resolveSrc src s).1
        (regRead dst.raw (resolveSrc src s).2).2) := by
  have hbank : (regRead dst.raw (resolveSrc src s).2).2.mbe = s.mbe := by rw [regRead_state]; simp
  have hcfg : (regRead dst.raw (resolveSrc src s).2).2.cfg = s.cfg := by rw [regRead_state]; simp
  simp only [exec, execMove, resolveDst, h, writeDst]
  rw [linAddr_congr hcfg hbank]

theorem exec_move_cell {r : Reg} {s : State} (h : dstIs s.cfg.regMap dst (.cell r)) (src : Operand) :
    exec (.move src dst) s = .next ((resolveSrc src s).2.setReg r (resolveSrc src s).1) := by
  rw [exec_move_direct h.1, regWrite_of_cell _ (by rw [resolveSrc_cfg]; exact h.2)]

theorem exec_move_stack {s : State} (h : dstIs s.cfg.regMap dst .stack) (src : Operand) :
    exec (.move src dst) s = .next (stackPush (resolveSrc src s).1 (resolveSrc src s).2) := by
  rw [exec_move_direct h.1, regWrite_of_stack _ (by rw [resolveSrc_cfg]; exact h.2)]

end

/-- Settles O34: the destination is the cell. -/
theorem moveToARegister : Obligations.MoveToARegister :=
  fun src _ _ _ h => exec_move_cell h src

/-- Settles O35: the destination is the stack, the output port, or neither a cell nor one of these. -/
theorem moveToTheStackOrAPort : Obligations.MoveToTheStackOrAPort := by
  refine fun src dst s => ⟨fun h => ⟨_, exec_move_stack h src, stackPush_sp .., fun hwf hin => ?_, fun hout => ?_⟩,
    fun h => ?_, fun hmode h => ?_⟩
  · have hwf' : Stack.wf (resolveSrc src s).2 := by rw [Stack.wf, resolveSrc_stack]; exact hwf
    have hin' : u16 (resolveSrc src s).2.sp < (resolveSrc src s).2.cfg.stackSize := by rwa [resolveSrc_cfg]
    refine ⟨stackAt_stackPush_same _ hwf' hin', ?_⟩
    rw [stackPush_of_inside _ hin']
  · rw [stackPush_of_outside _ (by rwa [resolveSrc_cfg])]
    exact ⟨stackAt_congr (resolveSrc_cfg src s) (resolveSrc_stack src s), rfl⟩
  · rw [exec_move_direct h.1, regWrite_of_output _ (by rw [resolveSrc_cfg]; exact h.2), outAccept,
      resolveSrc_outAccepted]
  · rw [exec_move_direct hmode, regWrite_of_invalid _ (by rw [resolveSrc_cfg]; exact h), State.report]

/-- The word at an address after a write to a state with the contents of `s`. -/
theorem wordAt_memWrite_of_sameContents {s u : State} (hsame : s.SameContents u) (hwf : Memory.wf s) (addr : Int)
    (v : Word) (a : Nat) :
    (memWrite addr v u).wordAt a = if (a : Int) = addr ∧ writableAt s.cfg.blocks a = true then v else s.wordAt a := by
  have hwf' : Memory.wf u := by rwa [Memory.wf, hsame.cfg, hsame.mem]
  rw [wordAt_memWrite hwf', hsame.cfg, wordAt_congr hsame.cfg hsame.mem]

theorem sameContents_regRead (raw : Word) (s : State) : s.SameContents (regRead raw s).2 := by
  rw [regRead_state]
  exact ⟨rfl, rfl, rfl⟩

/-- Settles O36: both modes write at an address, in a state with the contents of `s`. -/
theorem moveToMemory : Obligations.MoveToMemory := by
  refine fun src dst s hwf => ⟨fun hmode => ⟨_, exec_move_memory hmode src s, fun a => ?_⟩,
    fun hmode => ⟨_, exec_move_pointer hmode src s, fun a => ?_⟩⟩
  · exact wordAt_memWrite_of_sameContents (sameContents_resolveSrc src s) hwf _ _ a
  · exact wordAt_memWrite_of_sameContents ((sameContents_resolveSrc src s).trans (sameContents_regRead _ _)) hwf _ _ a

theorem memWrite_state (addr : Int) (v : Word) (s : State) :
    memWrite addr v s = { s with mem := (memWrite addr v s).mem, reports := (memWrite addr v s).reports } := by
  rcases memWrite_cases addr v s with ⟨k, r, -, -, e⟩ | ⟨k, r, -, -, e⟩ | ⟨-, e⟩ <;> rw [e] <;> rfl

/-- Settles O13: the load reads the word that the store left at the same linear address. -/
theorem storeThenLoadGivesTheWord : Obligations.StoreThenLoadGivesTheWord := by
  intro s t v n raw hwf hraw ht
  obtain rfl : memWrite (linAddr s n) v s = t := Host.Outcome.next.inj ((exec_move_memory rfl _ s).symm.trans ht)
  set addr := linAddr s n with haddr
  have hcfg : (memWrite addr v s).cfg = s.cfg := writeDst_cfg (.memory addr) v s
  have hbank : (memWrite addr v s).mbe = s.mbe := by rw [memWrite_state]
  refine ⟨_, exec_move_cell ⟨rfl, by rwa [hcfg]⟩ _, ?_⟩
  rw [resolveSrc_memoryAt, linAddr_congr hcfg hbank, setReg_at_r0, memRead_fst, wordAt_memWrite hwf]
  by_cases hnonneg : 0 ≤ addr
  · simp [← haddr, hnonneg]
  · simp [← haddr, hnonneg]

/-! ### Corner cases of MOVE -/

/-- Storing what an index already reads as changes nothing. -/
theorem cellSet_cellGet {unlisted : Nat → Word} {m : Cells} (h : Cells.wf unlisted m) (a : Nat) :
    cellSet (unlisted a) a (cellGet (unlisted a) m a) m = m := by
  refine cells_ext (cellSet_wf h) h fun b => ?_
  by_cases hb : b = a
  · subst hb
    exact cellGet_cellSet_same h.1
  · exact cellGet_cellSet_ne hb

/-- R117: in bounds, pushing back what a pop gave undoes the pop. -/
theorem stackPush_stackPop {s : State} (hwf : Stack.wf s) (h : u16 (s.sp - 1) < s.cfg.stackSize) :
    stackPush (stackPop s).1 (stackPop s).2 = s := by
  rw [stackPop_of_inside h, stackPush_of_inside _ h, State.stackAt, if_pos h,
    cellSet_cellGet (unlisted := fun _ => 0) hwf, BitVec.sub_add_cancel]

/-- Settles O37, each case by what its source resolves to and where its destination writes. -/
theorem moveCornerCases : Obligations.MoveCornerCases := by
  intro s r o hwf hv
  set m := s.cfg.regMap with hm
  have hstack : regTarget m m.stack = some .stack := regTarget_addressOf hv .stack
  have hsp : regTarget m m.sp = some (.cell .sp) := regTarget_addressOf hv (.cell .sp)
  have hep : regTarget m m.ep = some (.cell .ep) := regTarget_addressOf hv (.cell .ep)
  have hr0 : regTarget m m.r0 = some (.cell .r0) := regTarget_addressOf hv (.cell .r0)
  have hr3 : regTarget m m.r3 = some (.cell .r3) := regTarget_addressOf hv (.cell .r3)
  refine ⟨fun hmode ht => ?_, fun hin => ?_, fun hin => ?_, fun hin => ?_, ?_, ?_⟩
  · rw [exec_move_cell ⟨dstMode_of_srcMode_direct hmode, ht⟩, resolveSrc_of_direct hmode, regRead_of_cell ht,
      setReg_getReg]
  · rw [exec_move_stack ⟨rfl, hstack⟩, resolveSrc_direct, regRead_of_stack hstack, stackPush_stackPop hwf hin]
  · refine ⟨stackPush s.sp s, ?_, stackAt_stackPush_same _ hwf hin, stackPush_sp ..⟩
    rw [exec_move_stack ⟨rfl, hstack⟩, resolveSrc_direct, regRead_of_cell hsp, getReg_sp]
  · rw [exec_move_cell ⟨rfl, hsp⟩, resolveSrc_direct, regRead_of_stack hstack, stackPop_of_inside hin, setReg_at_sp]
  · rw [exec_move_cell ⟨rfl, hr0⟩, resolveSrc_direct, regRead_of_cell hep, setReg_at_r0, getReg_ep]
  · rw [exec_move_cell ⟨rfl, hr3⟩, resolveSrc_immediate, setReg_at_r3]

/-! ### INT, the unknown opcode and interrupts from outside -/

theorem exec_int (src x : Operand) (s : State) :
    exec (.int src x) s = .next (pendInterrupt (resolveSrc src s).1 (resolveSrc src s).2) := rfl

theorem exec_unknown (opc : BitVec 10) (a b : Operand) (s : State) :
    exec (.unknown opc a b) s = .next (s.report (.unknownOpcode opc)) := rfl

/-- Settles O38: INT pends the interrupt with its operand's value. -/
theorem intRaisesTheInterrupt : Obligations.IntRaisesTheInterrupt := fun src x s => exec_int src x s

/-- Settles O39: an unknown opcode is a report. -/
theorem unknownOpcodeOnlyReports : Obligations.UnknownOpcodeOnlyReports := fun opc a b s => exec_unknown opc a b s

/-- Settles O42: an interrupt raised outside pends as INT does on an immediate; the second code replaces the first, and
the step services what is pending. -/
theorem externalInterruptActsAsInt : Obligations.ExternalInterruptActsAsInt := by
  refine fun s c d x => ⟨⟨raiseInterrupt c s, rfl, ?_⟩, ?_⟩
  · rw [exec_int, resolveSrc_immediate, raiseInterrupt]
  · simp only [runTransactions, transact, raiseInterrupt, step_of_pending (pendInterrupt_pending _ d)]
    rfl

end Sys2Proof.Machine

/-! Frames (R84, R94, R107, R115, R118): the state after an instruction as the state before with the fields written
anew, class by class, and the obligations about what stays. -/

namespace Sys2Proof.Machine

/-! ### What resolving operands does to the state -/

/-- R46, R53: resolving a source pops once if it reads STACK, polls once if it reads IN, and may report. -/
theorem resolveSrc_update (o : Operand) (s : State) :
    ∃ rs, (resolveSrc o s).2 =
      { s with
        sp := s.sp - (if srcReads s.cfg.regMap o .stack then 1 else 0)
        inQueue := s.inQueue.drop (if srcReads s.cfg.regMap o .input then 1 else 0)
        reports := rs } := by
  refine ⟨(resolveSrc o s).2.reports, ?_⟩
  rw [resolveSrc_state]
  split_ifs <;> simp

/-- R46, R53: resolving MOVE's destination pops or polls once if its pointer step does, and may report. -/
theorem resolveDst_update (o : Operand) (s : State) :
    ∃ rs, (resolveDst o s).2 =
      { s with
        sp := s.sp - (if dstReads s.cfg.regMap o .stack then 1 else 0)
        inQueue := s.inQueue.drop (if dstReads s.cfg.regMap o .input then 1 else 0)
        reports := rs } := by
  refine ⟨(resolveDst o s).2.reports, ?_⟩
  rw [resolveDst_state]
  split_ifs <;> simp

/-- R84: the state after two sources are resolved, param0's first. -/
theorem resolveSrc_resolveSrc_update (a b : Operand) (s : State) :
    ∃ rs, (resolveSrc b (resolveSrc a s).2).2 =
      { s with
        sp := s.sp - (if srcReads s.cfg.regMap a .stack then 1 else 0) -
          (if srcReads s.cfg.regMap b .stack then 1 else 0)
        inQueue := s.inQueue.drop ((if srcReads s.cfg.regMap a .input then 1 else 0) +
          (if srcReads s.cfg.regMap b .input then 1 else 0))
        reports := rs } := by
  obtain ⟨ra, ha⟩ := resolveSrc_update a s
  obtain ⟨rb, hb⟩ := resolveSrc_update b (resolveSrc a s).2
  refine ⟨rb, ?_⟩
  rw [hb, ha]
  simp only [List.drop_drop]

/-- R84, R115: the state after MOVE's source and destination are resolved. -/
theorem resolveDst_resolveSrc_update (src dst : Operand) (s : State) :
    ∃ rs, (resolveDst dst (resolveSrc src s).2).2 =
      { s with
        sp := s.sp - (if srcReads s.cfg.regMap src .stack then 1 else 0) -
          (if dstReads s.cfg.regMap dst .stack then 1 else 0)
        inQueue := s.inQueue.drop ((if srcReads s.cfg.regMap src .input then 1 else 0) +
          (if dstReads s.cfg.regMap dst .input then 1 else 0))
        reports := rs } := by
  obtain ⟨ra, ha⟩ := resolveSrc_update src s
  obtain ⟨rb, hb⟩ := resolveDst_update dst (resolveSrc src s).2
  refine ⟨rb, ?_⟩
  rw [hb, ha]
  simp only [List.drop_drop]

/-! ### The state after an instruction, class by class -/

/-- R94: the state after a math instruction. -/
theorem exec_math_update {i : Instr} {s t : State} (hc : i.cls = .math) (ht : exec i s = .next t) :
    ∃ p q f rs, t =
      { s with
        acc0 := p
        acc1 := q
        flags := flagsWord f
        sp := s.sp - (if srcReads s.cfg.regMap i.operand0 .stack then 1 else 0) -
          (if srcReads s.cfg.regMap i.operand1 .stack then 1 else 0)
        inQueue := s.inQueue.drop ((if srcReads s.cfg.regMap i.operand0 .input then 1 else 0) +
          (if srcReads s.cfg.regMap i.operand1 .input then 1 else 0))
        reports := rs } := by
  obtain ⟨o, ho⟩ := exec_math hc
  obtain ⟨rs, hread⟩ := resolveSrc_resolveSrc_update i.operand0 i.operand1 s
  simp only [ho, mathClass_eq, hread] at ht
  exact ⟨_, _, _, _, (Host.Outcome.next.inj ht).symm⟩

/-- R107: the state after a jump. -/
theorem exec_jump_update {i : Instr} {s t : State} (hc : i.cls = .jump) (ht : exec i s = .next t) :
    ∃ (f : BitVec 8) (taken : Bool) (rs : List Report), t =
      { s with
        flags := flagsWord f
        ep := if taken then s.r3 else s.ep
        sp := s.sp - (if srcReads s.cfg.regMap i.operand0 .stack then 1 else 0) -
          (if srcReads s.cfg.regMap i.operand1 .stack then 1 else 0)
        inQueue := s.inQueue.drop ((if srcReads s.cfg.regMap i.operand0 .input then 1 else 0) +
          (if srcReads s.cfg.regMap i.operand1 .input then 1 else 0))
        reports := rs } := by
  obtain ⟨o, ho⟩ := exec_jump hc
  obtain ⟨rs, hread⟩ := resolveSrc_resolveSrc_update i.operand0 i.operand1 s
  simp only [ho, jumpClass_eq, hread] at ht
  exact ⟨_, _, _, (Host.Outcome.next.inj ht).symm⟩

/-- R115, R116: MOVE's write, to memory or to the destination's register address, after both its operands are resolved
to the state `u`. -/
theorem exec_move_cases {src dst : Operand} {s t u : State} (ht : exec (.move src dst) s = .next t)
    (hu : (resolveDst dst (resolveSrc src s).2).2 = u) :
    (∃ addr, dstMode dst ≠ .direct ∧ (resolveDst dst (resolveSrc src s).2).1 = .memory addr ∧
      t = memWrite addr (resolveSrc src s).1 u) ∨
    (dstMode dst = .direct ∧ (resolveDst dst (resolveSrc src s).2).1 = .register dst.raw ∧
      u = (resolveSrc src s).2 ∧ t = regWrite dst.raw (resolveSrc src s).1 u) := by
  have hwrite : writeDst (resolveDst dst (resolveSrc src s).2).1 (resolveSrc src s).1 u = t := by
    subst hu
    exact Host.Outcome.next.inj ht
  rcases resolveDst_dest dst (resolveSrc src s).2 with ⟨hmode, e⟩ | ⟨hmode, e⟩ | ⟨hmode, e⟩ <;>
    rw [e] at hu hwrite ⊢
  · exact .inr ⟨hmode, rfl, hu.symm, hwrite.symm⟩
  · exact .inl ⟨_, by rw [hmode]; decide, rfl, hwrite.symm⟩
  · exact .inl ⟨_, by rw [hmode]; decide, rfl, hwrite.symm⟩

/-! ### What a write of a register address and of a memory word leave alone -/

section
variable (raw v : Word) (s : State)

/-- Whatever the address names, memory, the input queue and the pending flag stay. -/
theorem regWrite_keeps :
    (regWrite raw v s).mem = s.mem ∧ (regWrite raw v s).inQueue = s.inQueue ∧
      (regWrite raw v s).pending = s.pending := by
  rcases regWrite_cases raw v s with ⟨r, -, e⟩ | ⟨-, e⟩ | ⟨-, e⟩ | ⟨-, e⟩ <;> rw [e]
  · exact ⟨setReg_mem .., setReg_inQueue .., setReg_pending ..⟩
  · rcases stackPush_cases v s with ⟨-, e⟩ | ⟨-, e⟩ <;> rw [e] <;> exact ⟨rfl, rfl, rfl⟩
  · exact ⟨rfl, rfl, rfl⟩
  · exact ⟨rfl, rfl, rfl⟩

@[simp] theorem regWrite_mem : (regWrite raw v s).mem = s.mem := (regWrite_keeps raw v s).1

@[simp] theorem regWrite_inQueue : (regWrite raw v s).inQueue = s.inQueue := (regWrite_keeps raw v s).2.1

@[simp] theorem regWrite_pending : (regWrite raw v s).pending = s.pending := (regWrite_keeps raw v s).2.2

@[simp] theorem regWrite_cfg : (regWrite raw v s).cfg = s.cfg := writeDst_cfg (.register raw) v s

end

/-- A push leaves every register but SP alone. -/
theorem getReg_stackPush {r : Reg} (h : r ≠ .sp) (v : Word) (s : State) : (stackPush v s).getReg r = s.getReg r := by
  rcases stackPush_cases v s with ⟨-, e⟩ | ⟨-, e⟩ <;> rw [e] <;> cases r <;> first | rfl | contradiction

section
variable {raw v : Word} {s : State}

/-- R81: a register other than SP changes only by a write of its own address. -/
theorem getReg_regWrite {r : Reg} (hr : regTarget s.cfg.regMap raw ≠ some (.cell r)) (hsp : r ≠ .sp) :
    (regWrite raw v s).getReg r = s.getReg r := by
  rcases regWrite_cases raw v s with ⟨q, hq, e⟩ | ⟨-, e⟩ | ⟨-, e⟩ | ⟨-, e⟩ <;> rw [e]
  · exact getReg_setReg_ne s v (by rintro rfl; exact hr hq)
  · exact getReg_stackPush hsp v s
  · cases r <;> rfl
  · cases r <;> rfl

/-- R45, R81: SP changes only by a write of its own address and by a push. -/
theorem regWrite_sp (hr : regTarget s.cfg.regMap raw ≠ some (.cell .sp)) :
    (regWrite raw v s).sp = s.sp + (if regTarget s.cfg.regMap raw = some .stack then 1 else 0) := by
  rcases regWrite_cases raw v s with ⟨q, hq, e⟩ | ⟨hq, e⟩ | ⟨hq, e⟩ | ⟨hq, e⟩
  · have hne : Reg.sp ≠ q := by rintro rfl; exact hr hq
    have hsp : (s.setReg q v).sp = s.sp := getReg_setReg_ne s v hne
    simp [e, hq, hsp]
  · simp [e, hq]
  · simp [e, hq]
  · rcases hq with hq | hq <;> simp [e, hq]

/-- R45: the stack block changes only by a push. -/
theorem regWrite_stack (hr : regTarget s.cfg.regMap raw ≠ some .stack) : (regWrite raw v s).stack = s.stack := by
  rcases regWrite_cases raw v s with ⟨q, -, e⟩ | ⟨hq, -⟩ | ⟨-, e⟩ | ⟨-, e⟩
  · rw [e, setReg_stack]
  · exact absurd hq hr
  · rw [e, outAccept_stack]
  · rw [e, report_stack]

/-- R57: the output changes only by a write of the output port. -/
theorem regWrite_outAccepted (hr : regTarget s.cfg.regMap raw ≠ some .output) :
    (regWrite raw v s).outAccepted = s.outAccepted := by
  rcases regWrite_cases raw v s with ⟨q, -, e⟩ | ⟨-, e⟩ | ⟨hq, -⟩ | ⟨-, e⟩
  · rw [e, setReg_outAccepted]
  · rw [e]
    rcases stackPush_cases v s with ⟨-, e⟩ | ⟨-, e⟩ <;> rw [e]
  · exact absurd hq hr
  · rw [e, report_outAccepted]

/-- A memory write leaves the words at other addresses alone. -/
theorem wordAt_memWrite_ne {addr : Int} {a : Nat} (h : (a : Int) ≠ addr) :
    (memWrite addr v s).wordAt a = s.wordAt a := by
  rcases memWrite_cases addr v s with ⟨k, r, hcovered, -, e⟩ | ⟨k, r, -, -, e⟩ | ⟨-, e⟩ <;> rw [e]
  · refine wordAt_storeWord_ne fun hc => ?_
    cases addr with
    | ofNat b => exact h (congrArg Int.ofNat hc)
    | negSucc b => cases hcovered
  · rfl

end

@[simp] theorem getReg_memWrite (addr : Int) (v : Word) (s : State) (r : Reg) :
    (memWrite addr v s).getReg r = s.getReg r := by
  rw [memWrite_state]
  cases r <;> rfl

/-! ### What stays -/

/-- D18: the flags byte leaves the high half of FLAGS 0. -/
theorem flagsWord_high (f : BitVec 8) : (flagsWord f).extractLsb' 8 8 = 0 := by
  ext k hk
  simp [flagsWord]

/-- Settles O43, from the state after a math instruction. -/
theorem mathFrame : Obligations.MathFrame := by
  intro i s t hc ht
  obtain ⟨p, q, f, rs, rfl⟩ := exec_math_update hc ht
  refine ⟨fun r h0 h1 hf hsp => ?_, rfl, rfl, flagsWord_high f, rfl, rfl, rfl, fun _ => rfl, fun _ => rfl⟩
  cases r <;> first | rfl | contradiction

/-- Settles O44, from the state after a jump. -/
theorem jumpFrame : Obligations.JumpFrame := by
  intro i s t hc ht
  obtain ⟨f, taken, rs, rfl⟩ := exec_jump_update hc ht
  refine ⟨fun r hf he hsp => ?_, ?_, rfl, rfl, flagsWord_high f, rfl, rfl, rfl, fun _ => rfl, fun _ => rfl⟩
  · cases r <;> first | rfl | contradiction
  · cases taken
    · exact .inl rfl
    · exact .inr rfl

/-- Settles O45: the operands' resolution, and then a write of memory or of a register address. -/
theorem moveFrame : Obligations.MoveFrame := by
  intro src dst s t ht
  obtain ⟨rs, hread⟩ := resolveDst_resolveSrc_update src dst s
  generalize hu : (resolveDst dst (resolveSrc src s).2).2 = u at hread
  have hreg : ∀ r, r ≠ .sp → u.getReg r = s.getReg r := fun r hr => by
    subst hread
    cases r <;> first | rfl | contradiction
  have hsame : s.SameContents u := by
    subst hread
    exact ⟨rfl, rfl, rfl⟩
  have hmap : u.cfg.regMap = s.cfg.regMap := by rw [hsame.cfg]
  rcases exec_move_cases ht hu with ⟨addr, hmode, hdest, rfl⟩ | ⟨hmode, hdest, hsource, rfl⟩
  · have hnot : ∀ target, ¬ dstIs s.cfg.regMap dst target := fun _ h => hmode h.1
    refine ⟨fun r _ hr => ?_, fun _ => ?_, fun h => absurd h hmode, fun addr' h a ha => ?_, fun _ i => ?_,
      fun h => absurd h (hnot _), ?_, fun _ => ?_, ?_, ?_⟩
    · rw [getReg_memWrite, hreg r hr]
    · rw [memWrite_state, if_neg (hnot .stack), hread]
      exact (BitVec.add_zero _).symm
    · obtain rfl : addr = addr' := Dest.memory.inj (hdest.symm.trans h)
      rw [wordAt_memWrite_ne ha, wordAt_congr hsame.cfg hsame.mem]
    · rw [memWrite_state]
      exact stackAt_congr hsame.cfg hsame.stack i
    all_goals rw [memWrite_state, hread]
  · have htarget : ∀ target, regTarget u.cfg.regMap dst.raw = some target → dstIs s.cfg.regMap dst target :=
      fun _ h => ⟨hmode, hmap ▸ h⟩
    refine ⟨fun r hr hsp => ?_, fun hsp => ?_, fun _ a => ?_, fun addr h => ?_, fun hstack i => ?_,
      fun hstack i hi => ?_, ?_, fun hout => ?_, ?_, ?_⟩
    · rw [getReg_regWrite (fun h => hr (htarget _ h)) hsp, hreg r hsp]
    · rw [regWrite_sp fun h => hsp (htarget _ h)]
      simp [dstIs, hmode, hread]
    · exact wordAt_congr ((regWrite_cfg ..).trans hsame.cfg) ((regWrite_mem ..).trans hsame.mem) a
    · cases hdest.symm.trans h
    · exact stackAt_congr ((regWrite_cfg ..).trans hsame.cfg)
        ((regWrite_stack fun h => hstack (htarget _ h)).trans hsame.stack) i
    · rw [regWrite_of_stack _ (by rw [hmap]; exact hstack.2), stackAt_stackPush_ne _ (by rwa [hsource]),
        stackAt_congr hsame.cfg hsame.stack]
    · rw [regWrite_inQueue, hread]
    · rw [regWrite_outAccepted fun h => hout (htarget _ h), hread]
    · rw [regWrite_pending, hread]
    · rw [regWrite_cfg, hread]

/-- Settles O46: INT is a source's resolution and the interrupt pended, an unknown opcode a report. -/
theorem intAndUnknownFrame : Obligations.IntAndUnknownFrame := by
  refine ⟨fun src x s t ht => ?_, fun opc a b s t ht => ?_⟩
  · obtain ⟨rs, hread⟩ := resolveSrc_update src s
    rw [exec_int, hread] at ht
    obtain rfl := Host.Outcome.next.inj ht
    refine ⟨fun r hintc hsp => ?_, rfl, rfl, rfl, rfl, fun _ => rfl, fun _ => rfl⟩
    cases r <;> first | rfl | contradiction
  · obtain rfl := Host.Outcome.next.inj ht
    exact ⟨fun r => by cases r <;> rfl, rfl, rfl, rfl, rfl, fun _ => rfl, fun _ => rfl⟩

/-! ### The writers of a register -/

section
variable {m : RegisterMap} {t : RegTarget}

/-- R84: what a math or jump instruction does not read, neither of its operands reads. -/
theorem not_srcReads_of_not_readsAddress {i : Instr} (hc : i.cls = .math ∨ i.cls = .jump)
    (h : ¬ readsAddress m i t) : ¬ srcReads m i.operand0 t ∧ ¬ srcReads m i.operand1 t := by
  refine ⟨fun ha => h (.inl ⟨?_, ha⟩), fun hb => h (.inr (.inl ⟨hc, hb⟩))⟩
  rcases hc with hc | hc <;> rw [hc] <;> decide

/-- R84: what a MOVE does not read, neither its source nor its destination's pointer step reads. -/
theorem not_reads_of_not_readsAddress_move {src dst : Operand} (h : ¬ readsAddress m (.move src dst) t) :
    ¬ srcReads m src t ∧ ¬ dstReads m dst t :=
  ⟨fun ha => h (.inl ⟨nofun, ha⟩), fun hb => h (.inr (.inr ⟨rfl, hb⟩))⟩

/-- R84: what an INT does not read, its operand does not read. -/
theorem not_srcReads_of_not_readsAddress_int {src x : Operand} (h : ¬ readsAddress m (.int src x) t) :
    ¬ srcReads m src t :=
  fun ha => h (.inl ⟨nofun, ha⟩)

end

/-- R22 to R30: a register that is no destination, that the class does not write, and that no pop or push moves, is
what it was. -/
theorem exec_getReg_of_not_written {i : Instr} {s t : State} {r : Reg} (ht : exec i s = .next t)
    (hmove : ¬ movesTo s.cfg.regMap i (.cell r)) (himplicit : implicitWrite i r = false)
    (hsp : r = .sp → ¬ readsAddress s.cfg.regMap i .stack ∧ ¬ movesTo s.cfg.regMap i .stack) :
    t.getReg r = s.getReg r := by
  rcases instr_cases i with hc | hc | ⟨src, dst, rfl⟩ | ⟨src, x, rfl⟩ | ⟨opc, a, b, rfl⟩
  · obtain ⟨hregs, hstack, -⟩ := mathFrame i s t hc ht
    obtain ⟨⟨h0, h1⟩, hf⟩ : (r ≠ .acc0 ∧ r ≠ .acc1) ∧ r ≠ .flags := by simpa [implicitWrite, hc] using himplicit
    by_cases hr : r = .sp
    · obtain ⟨hpop, -⟩ := hsp hr
      obtain ⟨ha, hb⟩ := not_srcReads_of_not_readsAddress (.inl hc) hpop
      simpa [hr, ha, hb] using hstack
    · exact hregs r h0 h1 hf hr
  · obtain ⟨hregs, -, hstack, -⟩ := jumpFrame i s t hc ht
    obtain ⟨hf, he⟩ : r ≠ .flags ∧ r ≠ .ep := by simpa [implicitWrite, hc] using himplicit
    by_cases hr : r = .sp
    · obtain ⟨hpop, -⟩ := hsp hr
      obtain ⟨ha, hb⟩ := not_srcReads_of_not_readsAddress (.inr hc) hpop
      simpa [hr, ha, hb] using hstack
    · exact hregs r hf he hr
  · obtain ⟨hregs, hstack, -⟩ := moveFrame src dst s t ht
    have hdst : ¬ dstIs s.cfg.regMap dst (.cell r) := fun h => hmove ⟨src, dst, rfl, h⟩
    by_cases hr : r = .sp
    · obtain ⟨hpop, hpush⟩ := hsp hr
      obtain ⟨ha, hb⟩ := not_reads_of_not_readsAddress_move hpop
      have hd : ¬ dstIs s.cfg.regMap dst .stack := fun h => hpush ⟨src, dst, rfl, h⟩
      simpa [hr, ha, hb, hd] using hstack (hr ▸ hdst)
    · exact hregs r hdst hr
  · obtain ⟨hregs, hstack, -⟩ := intAndUnknownFrame.1 src x s t ht
    have hintc : r ≠ .intc := by simpa [implicitWrite, Instr.cls] using himplicit
    by_cases hr : r = .sp
    · obtain ⟨hpop, -⟩ := hsp hr
      have ha := not_srcReads_of_not_readsAddress_int hpop
      simpa [hr, ha] using hstack
    · exact hregs r hintc hr
  · exact (intAndUnknownFrame.2 opc a b s t ht).1 r

/-- Settles O47, by the class frames. -/
theorem registersChangeOnlyByTheirWriters : Obligations.RegistersChangeOnlyByTheirWriters :=
  fun _ _ _ _ => exec_getReg_of_not_written

end Sys2Proof.Machine

/-! What an instruction does not look at (R18, R22 to R31): registers that it does not name, the pending flag and the
reports before it, each by rerunning the instruction from the state with another value there, and the obligations
about them. -/

namespace Sys2Proof.Machine

/-! ### Another value in a register -/

theorem reportOpt_setReg (s : State) (r : Reg) (v : Word) (x : Option Report) :
    (s.setReg r v).reportOpt x = (s.reportOpt x).setReg r v := by
  cases x with
  | none => rfl
  | some x => exact report_setReg s r v x

theorem pendInterrupt_setReg {r : Reg} (h : r ≠ .intc) (c : Word) (s : State) (v : Word) :
    pendInterrupt c (s.setReg r v) = (pendInterrupt c s).setReg r v := by
  cases r <;> first | rfl | contradiction

theorem mathNext_setReg {r : Reg} (h0 : r ≠ .acc0) (h1 : r ≠ .acc1) (hf : r ≠ .flags) (s : State) (v p q : Word)
    (f : BitVec 8) : mathNext (s.setReg r v) p q f = (mathNext s p q f).setReg r v := by
  cases r <;> first | rfl | contradiction

theorem mathNext_setReg_written {r : Reg} (h : r = .acc0 ∨ r = .acc1 ∨ r = .flags) (s : State) (v p q : Word)
    (f : BitVec 8) : mathNext (s.setReg r v) p q f = mathNext s p q f := by
  rcases h with rfl | rfl | rfl <;> rfl

theorem jumpNext_setReg {r : Reg} (hf : r ≠ .flags) (he : r ≠ .ep) (h3 : r ≠ .r3) (s : State) (v : Word)
    (f : BitVec 8) (taken : Bool) : jumpNext (s.setReg r v) f taken = (jumpNext s f taken).setReg r v := by
  cases r <;> first | rfl | contradiction

theorem jumpNext_setReg_flags (s : State) (v : Word) (f : BitVec 8) (taken : Bool) :
    jumpNext (s.setReg .flags v) f taken = jumpNext s f taken := rfl

/-- A MOVE is of no other class. -/
theorem cls_of_movesTo {m : RegisterMap} {i : Instr} {t : RegTarget} (h : movesTo m i t) : i.cls = .move := by
  obtain ⟨src, dst, rfl, -⟩ := h
  rfl

section
variable {s : State} {r : Reg} {v : Word}

/-- Two sources that do not name the register resolve alike, whatever it holds. -/
theorem resolveSrc_resolveSrc_setReg {a b : Operand} (ha : ¬ srcReads s.cfg.regMap a (.cell r))
    (hb : ¬ srcReads s.cfg.regMap b (.cell r)) (hsp : r ≠ .sp) (hmbe : r ≠ .mbe) :
    (resolveSrc a (s.setReg r v)).1 = (resolveSrc a s).1 ∧
      resolveSrc b (resolveSrc a (s.setReg r v)).2 =
        ((resolveSrc b (resolveSrc a s).2).1, (resolveSrc b (resolveSrc a s).2).2.setReg r v) := by
  have hb' : ¬ srcReads (resolveSrc a s).2.cfg.regMap b (.cell r) := by rwa [resolveSrc_cfg]
  rw [resolveSrc_setReg ha hsp hmbe, resolveSrc_setReg hb' hsp hmbe]
  exact ⟨rfl, rfl⟩

theorem mathClass_setReg {o : AluOp} {a b : Operand} (ha : ¬ srcReads s.cfg.regMap a (.cell r))
    (hb : ¬ srcReads s.cfg.regMap b (.cell r)) (hsp : r ≠ .sp) (hmbe : r ≠ .mbe) {t : State}
    (ht : mathClass o a b s = .next t) :
    ((r = .acc0 ∨ r = .acc1 ∨ r = .flags) → mathClass o a b (s.setReg r v) = .next t) ∧
      (r ≠ .acc0 → r ≠ .acc1 → r ≠ .flags → mathClass o a b (s.setReg r v) = .next (t.setReg r v)) := by
  obtain ⟨hx, hy⟩ := resolveSrc_resolveSrc_setReg (v := v) ha hb hsp hmbe
  rw [mathClass_eq_mathNext] at ht
  obtain rfl := Host.Outcome.next.inj ht
  simp only [mathClass_eq_mathNext, hx, hy, reportOpt_setReg, setReg_cfg]
  exact ⟨fun h => congrArg _ (mathNext_setReg_written h ..), fun h0 h1 hf => congrArg _ (mathNext_setReg h0 h1 hf ..)⟩

theorem jumpClass_setReg {o : CmpOp} {a b : Operand} (ha : ¬ srcReads s.cfg.regMap a (.cell r))
    (hb : ¬ srcReads s.cfg.regMap b (.cell r)) (hsp : r ≠ .sp) (hmbe : r ≠ .mbe) (h3 : r ≠ .r3) (hep : r ≠ .ep)
    {t : State} (ht : jumpClass o a b s = .next t) :
    (r = .flags → jumpClass o a b (s.setReg r v) = .next t) ∧
      (r ≠ .flags → jumpClass o a b (s.setReg r v) = .next (t.setReg r v)) := by
  obtain ⟨hx, hy⟩ := resolveSrc_resolveSrc_setReg (v := v) ha hb hsp hmbe
  rw [jumpClass_eq_jumpNext] at ht
  obtain rfl := Host.Outcome.next.inj ht
  simp only [jumpClass_eq_jumpNext, hx, hy, reportOpt_setReg]
  refine ⟨?_, fun hf => congrArg _ (jumpNext_setReg hf hep h3 ..)⟩
  rintro rfl
  exact congrArg _ (jumpNext_setReg_flags ..)

theorem exec_move_setReg {src dst : Operand} (ha : ¬ srcReads s.cfg.regMap src (.cell r))
    (hb : ¬ dstReads s.cfg.regMap dst (.cell r)) (hsp : r ≠ .sp) (hmbe : r ≠ .mbe) {t : State}
    (ht : exec (.move src dst) s = .next t) :
    (dstIs s.cfg.regMap dst (.cell r) → exec (.move src dst) (s.setReg r v) = .next t) ∧
      (¬ dstIs s.cfg.regMap dst (.cell r) → exec (.move src dst) (s.setReg r v) = .next (t.setReg r v)) := by
  have hsource := resolveSrc_setReg ha hsp hmbe v
  refine ⟨fun hdst => ?_, fun hdst => ?_⟩
  · rw [exec_move_cell hdst] at ht
    rw [exec_move_cell (by rwa [setReg_cfg]), hsource, setReg_setReg_same, ht]
  · have hb' : ¬ dstReads (resolveSrc src s).2.cfg.regMap dst (.cell r) := by rwa [resolveSrc_cfg]
    have hother : ∀ raw, (resolveDst dst (resolveSrc src s).2).1 = .register raw →
        regTarget (resolveDst dst (resolveSrc src s).2).2.cfg.regMap raw ≠ some (.cell r) := by
      intro raw hraw htarget
      rcases resolveDst_dest dst (resolveSrc src s).2 with ⟨hmode, e⟩ | ⟨-, e⟩ | ⟨-, e⟩ <;> rw [e] at hraw <;>
        cases hraw
      exact hdst ⟨hmode, by simpa using htarget⟩
    obtain rfl := Host.Outcome.next.inj ht
    simp only [exec, execMove, hsource, resolveDst_setReg hb' hsp hmbe, writeDst_setReg hsp _ _ hother]

end

/-- Settles O48, class by class: the operands resolve alike, and the writes are over the register or beside it. -/
theorem unnamedRegistersHaveNoInfluence : Obligations.UnnamedRegistersHaveNoInfluence := by
  intro i s t r v h3 hsp hep hmbe hread ht
  rcases instr_cases i with hc | hc | ⟨src, dst, rfl⟩ | ⟨src, x, rfl⟩ | ⟨opc, a, b, rfl⟩
  · obtain ⟨o, ho⟩ := exec_math hc
    obtain ⟨ha, hb⟩ := not_srcReads_of_not_readsAddress (.inl hc) hread
    have hnot : ¬ movesTo s.cfg.regMap i (.cell r) := fun h => by cases hc.symm.trans (cls_of_movesTo h)
    rw [ho] at ht ⊢
    obtain ⟨hwritten, hbeside⟩ := mathClass_setReg (v := v) ha hb hsp hmbe ht
    refine ⟨fun h => hwritten ?_, fun _ h => ?_⟩
    · simpa [implicitWrite, hc, or_assoc] using h.resolve_left hnot
    · obtain ⟨⟨h0, h1⟩, hf⟩ : (r ≠ .acc0 ∧ r ≠ .acc1) ∧ r ≠ .flags := by simpa [implicitWrite, hc] using h
      exact hbeside h0 h1 hf
  · obtain ⟨o, ho⟩ := exec_jump hc
    obtain ⟨ha, hb⟩ := not_srcReads_of_not_readsAddress (.inr hc) hread
    have hnot : ¬ movesTo s.cfg.regMap i (.cell r) := fun h => by cases hc.symm.trans (cls_of_movesTo h)
    rw [ho] at ht ⊢
    obtain ⟨hwritten, hbeside⟩ := jumpClass_setReg (v := v) ha hb hsp hmbe h3 hep ht
    refine ⟨fun h => hwritten ?_, fun _ h => hbeside ?_⟩
    · simpa [implicitWrite, hc, hep] using h.resolve_left hnot
    · rintro rfl
      simp [implicitWrite, hc] at h
  · obtain ⟨ha, hb⟩ := not_reads_of_not_readsAddress_move hread
    obtain ⟨hwritten, hbeside⟩ := exec_move_setReg (v := v) ha hb hsp hmbe ht
    refine ⟨fun h => ?_, fun h _ => hbeside fun hdst => h ⟨src, dst, rfl, hdst⟩⟩
    obtain ⟨_, _, hmove, hdst⟩ := h.resolve_right (by simp [implicitWrite, Instr.cls])
    cases hmove
    exact hwritten hdst
  · have ha := not_srcReads_of_not_readsAddress_int hread
    have hnot : ¬ movesTo s.cfg.regMap (.int src x) (.cell r) := fun h => by cases cls_of_movesTo h
    rw [exec_int] at ht ⊢
    obtain rfl := Host.Outcome.next.inj ht
    rw [resolveSrc_setReg ha hsp hmbe]
    refine ⟨fun h => ?_, fun _ h => ?_⟩
    · obtain rfl : r = .intc := by simpa [implicitWrite, Instr.cls] using h.resolve_left hnot
      rfl
    · have hintc : r ≠ .intc := by simpa [implicitWrite, Instr.cls] using h
      rw [pendInterrupt_setReg hintc]
  · have hnot : ¬ movesTo s.cfg.regMap (.unknown opc a b) (.cell r) := fun h => by cases cls_of_movesTo h
    rw [exec_unknown] at ht ⊢
    obtain rfl := Host.Outcome.next.inj ht
    refine ⟨fun h => ?_, fun _ _ => congrArg _ (report_setReg ..)⟩
    exact absurd (h.resolve_left hnot) (by simp [implicitWrite, Instr.cls])

/-! ### Another pending flag, other reports before -/

theorem reportOpt_rebase (s : State) (p : Bool) (before emitted : List Report) (x : Option Report) :
    (s.rebase p before emitted).reportOpt x = (s.reportOpt x).rebase p before (emitted ++ x.toList) := by
  cases x <;> simp [State.rebase, State.report]

theorem mathNext_rebase (s : State) (p q : Word) (f : BitVec 8) (b : Bool) (before emitted : List Report) :
    mathNext (s.rebase b before emitted) p q f = (mathNext s p q f).rebase b before emitted := rfl

theorem jumpNext_rebase (s : State) (f : BitVec 8) (taken : Bool) (b : Bool) (before emitted : List Report) :
    jumpNext (s.rebase b before emitted) f taken = (jumpNext s f taken).rebase b before emitted := rfl

/-- Two sources resolve alike and emit the same reports, whatever stands before and whatever is pending. -/
theorem resolveSrc_resolveSrc_rebase (a b : Operand) (s : State) (p : Bool) (before : List Report) :
    ∃ new, (resolveSrc b (resolveSrc a s).2).2.reports = s.reports ++ new ∧
      (resolveSrc a (s.rebase p before [])).1 = (resolveSrc a s).1 ∧
      resolveSrc b (resolveSrc a (s.rebase p before [])).2 =
        ((resolveSrc b (resolveSrc a s).2).1, (resolveSrc b (resolveSrc a s).2).2.rebase p before new) := by
  obtain ⟨na, hra, ea⟩ := resolveSrc_rebase a s p before []
  obtain ⟨nb, hrb, eb⟩ := resolveSrc_rebase b (resolveSrc a s).2 p before na
  refine ⟨na ++ nb, by rw [hrb, hra, List.append_assoc], ?_⟩
  rw [ea, List.nil_append, eb]
  exact ⟨rfl, rfl⟩

theorem mathNext_reports (s : State) (p q : Word) (f : BitVec 8) : (mathNext s p q f).reports = s.reports := rfl

theorem jumpNext_reports (s : State) (f : BitVec 8) (taken : Bool) : (jumpNext s f taken).reports = s.reports := rfl

theorem reportOpt_reports (s : State) (x : Option Report) : (s.reportOpt x).reports = s.reports ++ x.toList := by
  rw [reportOpt_state]

/-- An instruction does the same and emits the same reports, whatever stands before and whatever is pending; the flag
after is the flag before, or set by INT. -/
theorem exec_rebase {i : Instr} {s t : State} (ht : exec i s = .next t) (p : Bool) (before : List Report) :
    ∃ new, t.reports = s.reports ++ new ∧
      exec i (s.rebase p before []) = .next (t.rebase (p || decide (i.cls = .interrupt)) before new) := by
  rcases instr_cases i with hc | hc | ⟨src, dst, rfl⟩ | ⟨src, x, rfl⟩ | ⟨opc, a, b, rfl⟩
  · obtain ⟨o, ho⟩ := exec_math hc
    obtain ⟨new, hnew, hx, hy⟩ := resolveSrc_resolveSrc_rebase i.operand0 i.operand1 s p before
    rw [ho, mathClass_eq_mathNext] at ht
    obtain rfl := Host.Outcome.next.inj ht
    refine ⟨_, by rw [mathNext_reports, reportOpt_reports, hnew, List.append_assoc], ?_⟩
    simp only [ho, mathClass_eq_mathNext, hx, hy, rebase_cfg, reportOpt_rebase, mathNext_rebase, hc, reduceCtorEq,
      decide_false, Bool.or_false]
  · obtain ⟨o, ho⟩ := exec_jump hc
    obtain ⟨new, hnew, hx, hy⟩ := resolveSrc_resolveSrc_rebase i.operand0 i.operand1 s p before
    rw [ho, jumpClass_eq_jumpNext] at ht
    obtain rfl := Host.Outcome.next.inj ht
    refine ⟨_, by rw [jumpNext_reports, reportOpt_reports, hnew, List.append_assoc], ?_⟩
    simp only [ho, jumpClass_eq_jumpNext, hx, hy, reportOpt_rebase, jumpNext_rebase, hc, reduceCtorEq,
      decide_false, Bool.or_false]
  · obtain ⟨na, hra, ea⟩ := resolveSrc_rebase src s p before []
    obtain ⟨nb, hrb, eb⟩ := resolveDst_rebase dst (resolveSrc src s).2 p before na
    obtain ⟨nc, hrc, -, ec⟩ := writeDst_rebase (resolveDst dst (resolveSrc src s).2).1 (resolveSrc src s).1
      (resolveDst dst (resolveSrc src s).2).2 p before (na ++ nb)
    obtain rfl := Host.Outcome.next.inj ht
    refine ⟨na ++ nb ++ nc, by rw [hrc, hrb, hra]; simp only [List.append_assoc], ?_⟩
    simp only [exec, execMove, ea, List.nil_append, eb, ec, Instr.cls, reduceCtorEq, decide_false, Bool.or_false]
  · obtain ⟨new, hnew, e⟩ := resolveSrc_rebase src s p before []
    obtain rfl := Host.Outcome.next.inj ht
    refine ⟨new, hnew, ?_⟩
    rw [exec_int, e, Instr.cls, decide_eq_true rfl, Bool.or_true]
    rfl
  · obtain rfl := Host.Outcome.next.inj ht
    refine ⟨[.unknownOpcode opc], rfl, ?_⟩
    rw [exec_unknown, Instr.cls]
    simp [State.rebase, State.report]

theorem exec_pending {i : Instr} {s t : State} (ht : exec i s = .next t) :
    t.pending = (s.pending || decide (i.cls = .interrupt)) := by
  rcases instr_cases i with hc | hc | ⟨src, dst, rfl⟩ | ⟨src, x, rfl⟩ | ⟨opc, a, b, rfl⟩
  · obtain ⟨-, -, -, -, hpending, -⟩ := mathFrame i s t hc ht
    rw [hpending, hc, decide_eq_false nofun, Bool.or_false]
  · obtain ⟨-, -, -, -, -, hpending, -⟩ := jumpFrame i s t hc ht
    rw [hpending, hc, decide_eq_false nofun, Bool.or_false]
  · obtain ⟨-, -, -, -, -, -, -, -, hpending, -⟩ := moveFrame src dst s t ht
    rw [hpending, Instr.cls, decide_eq_false nofun, Bool.or_false]
  · obtain rfl := Host.Outcome.next.inj ht
    rw [Instr.cls, decide_eq_true rfl, Bool.or_true, pendInterrupt_pending]
  · obtain ⟨-, hpending, -⟩ := intAndUnknownFrame.2 opc a b s t ht
    rw [hpending, Instr.cls, decide_eq_false nofun, Bool.or_false]

theorem step_pending {s t : State} (ht : step s = .next t) :
    t.pending = true ↔ s.pending = false ∧ ((fetch s).1.instr s.cfg.opcodes).cls = .interrupt := by
  rcases step_cases s with ⟨hp, e⟩ | ⟨hp, e⟩ <;> rw [e] at ht
  · obtain rfl := Host.Outcome.next.inj ht
    simp [hp]
  · have hfetch : (fetch s).2.pending = s.pending := by rw [fetch_state]
    rw [exec_pending ht, hfetch, hp]
    simp

/-- Settles O49: the flag after an instruction, the rerun with another flag, the step's two cases, and the interrupt
raised outside. -/
theorem pendingFlagWriters : Obligations.PendingFlagWriters := by
  refine ⟨fun i s t p ht => ⟨?_, ?_⟩, fun s t => step_pending, fun s t c ht => ?_⟩
  · rw [exec_pending ht, Bool.or_eq_true, decide_eq_true_iff]
  · obtain ⟨new, hnew, e⟩ := exec_rebase ht p s.reports
    rw [State.rebase, List.append_nil, State.rebase, ← hnew] at e
    exact e
  · obtain rfl := Host.Outcome.next.inj ht
    exact ⟨pendInterrupt_pending .., pendInterrupt_intc ..⟩

/-- Settles O50: the rerun with other reports before; what is emitted is what follows the reports before. -/
theorem reportsHaveNoEffect : Obligations.ReportsHaveNoEffect := by
  intro i s t ht
  obtain ⟨emitted, hemitted, -⟩ := exec_rebase ht s.pending []
  refine ⟨emitted, hemitted, fun before => ?_⟩
  obtain ⟨new, hnew, e⟩ := exec_rebase ht s.pending before
  obtain rfl : new = emitted := List.append_cancel_left (hnew.symm.trans hemitted)
  rw [State.rebase, List.append_nil, State.rebase, ← exec_pending ht] at e
  exact e

end Sys2Proof.Machine

/-! Steps and runs (spec/40_cycle.md section 1, spec/60_exceptions.md, spec/70_reset_and_hazards.md): the fetch in one
equation, what a step does with what it fetched, the instruction that a loader placed, SPIN, reset, and the obligations
about them. -/

namespace Sys2Proof.Machine

/-! ### The fetch -/

/-- R37: the reports of reads at the addresses in a list, one for each that no block covers. -/
def oobReports (bs : List Block) (addrs : List Word) : List Report :=
  (addrs.filter fun e => decide (totalSize bs ≤ u16 e)).map fun e => .memOobRead (u16 e : Int)

@[simp] theorem oobReports_nil (bs : List Block) : oobReports bs [] = [] := rfl

theorem oobReports_cons (bs : List Block) (e : Word) (addrs : List Word) :
    oobReports bs (e :: addrs) =
      (if totalSize bs ≤ u16 e then [.memOobRead (u16 e : Int)] else []) ++ oobReports bs addrs := by
  by_cases he : totalSize bs ≤ u16 e <;> simp [oobReports, he]

/-- Reads that the blocks cover report nothing. -/
theorem oobReports_of_covered {bs : List Block} {addrs : List Word} (h : ∀ e ∈ addrs, u16 e < totalSize bs) :
    oobReports bs addrs = [] := by
  rw [oobReports, List.filter_eq_nil_iff.2, List.map_nil]
  intro e he
  rw [decide_eq_true_iff, not_le]
  exact h e he

/-- R42: the reports of the next fetch. -/
def fetchReports (s : State) : List Report := oobReports s.cfg.blocks [s.ep, s.ep + 1, s.ep + 2]

/-- R77: the fetch in one equation. -/
theorem fetch_eq (s : State) :
    fetch s =
      ({ op := s.wordAt (u16 s.ep), raw0 := s.wordAt (u16 (s.ep + 1)), raw1 := s.wordAt (u16 (s.ep + 2)) },
        { s with ep := s.ep + 3, reports := s.reports ++ fetchReports s }) := by
  have h2 : s.ep + 1 + 1 = s.ep + 2 := by bv_omega
  have h3 : s.ep + 2 + 1 = s.ep + 3 := by bv_omega
  simp only [fetch, fetchWord_eq, h2, h3, fetchReports, oobReports_cons, oobReports_nil, List.append_assoc,
    List.append_nil]
  rfl

/-- R76: with no interrupt pending, a step runs what its three words decode to. -/
theorem step_of_not_pending {s : State} (h : s.pending = false) :
    step s =
      exec (decode s.cfg.opcodes (s.wordAt (u16 s.ep)) (s.wordAt (u16 (s.ep + 1))) (s.wordAt (u16 (s.ep + 2))))
        { s with ep := s.ep + 3, reports := s.reports ++ fetchReports s } := by
  rcases step_cases s with ⟨hp, -⟩ | ⟨-, e⟩
  · rw [h] at hp
    cases hp
  · rw [e, fetch_eq, Fetched.instr]

/-- Settles O52, by the fetch's equation. -/
theorem stepRunsTheDecodedInstruction : Obligations.StepRunsTheDecodedInstruction := by
  rintro s i hp rfl
  exact step_of_not_pending hp

theorem getReg_fetch {r : Reg} (h : r ≠ .ep) (s : State) : (fetch s).2.getReg r = s.getReg r := by
  rw [fetch_state]
  cases r <;> first | rfl | contradiction

theorem fetch_ep (s : State) : (fetch s).2.ep = s.ep + 3 := by rw [fetch_state]

theorem fetch_cfg (s : State) : (fetch s).2.cfg = s.cfg := (sameContents_fetch s).cfg

/-! ### The address of the next instruction -/

theorem implicitWrite_ep {i : Instr} (h : i.cls ≠ .jump) : implicitWrite i .ep = false := by
  unfold implicitWrite
  cases hc : i.cls <;> first | rfl | contradiction

/-- Settles O51: EP is three further after the fetch, and a register that only MOVEs to it and jumps write. -/
theorem nextInstructionAddress : Obligations.NextInstructionAddress := by
  intro s t hp ht
  rcases step_cases s with ⟨hp', -⟩ | ⟨-, e⟩
  · rw [hp] at hp'
    cases hp'
  rw [e] at ht
  refine ⟨fun hmove hc => ?_, fun hc => ?_⟩
  · have hep := exec_getReg_of_not_written (r := .ep) ht (by rwa [fetch_cfg]) (implicitWrite_ep hc) nofun
    rw [← fetch_ep s]
    exact hep
  · obtain ⟨-, hep, -⟩ := jumpFrame _ _ t hc ht
    have hr3 : (fetch s).2.r3 = s.r3 := getReg_fetch (r := .r3) nofun s
    rwa [fetch_ep, hr3] at hep

/-! ### Nothing stops the machine -/

theorem exec_completes (i : Instr) (s : State) : ∃ t, exec i s = .next t := by
  rcases instr_cases i with hc | hc | ⟨src, dst, rfl⟩ | ⟨src, x, rfl⟩ | ⟨opc, a, b, rfl⟩
  · obtain ⟨o, ho⟩ := exec_math hc
    exact ⟨_, ho s⟩
  · obtain ⟨o, ho⟩ := exec_jump hc
    exact ⟨_, ho s⟩
  · exact ⟨_, rfl⟩
  · exact ⟨_, rfl⟩
  · exact ⟨_, rfl⟩

theorem transact_completes (a : Transaction) (s : State) : ∃ t, transact a s = .next t := by
  cases a with
  | step =>
    rcases step_cases s with ⟨-, e⟩ | ⟨-, e⟩
    · exact ⟨_, e⟩
    · obtain ⟨t, ht⟩ := exec_completes ((fetch s).1.instr s.cfg.opcodes) (fetch s).2
      exact ⟨t, e.trans ht⟩
  | raiseInterrupt code => exact ⟨_, rfl⟩
  | inputArrives v => exact ⟨_, rfl⟩

/-- Settles O57, by induction on the transactions: each answers a next state. -/
theorem everyRunCompletes : Obligations.EveryRunCompletes := by
  intro ts
  induction ts with
  | nil => exact fun s => ⟨s, rfl⟩
  | cons a ts ih =>
    intro s
    obtain ⟨u, hu⟩ := transact_completes a s
    obtain ⟨t, ht⟩ := ih u
    exact ⟨t, by simp only [runTransactions, hu, ht]⟩

/-! ### INT and its service -/

/-- Settles O41: the first step is INT on the fetched state, the second the service. -/
theorem interruptIsServicedNextStep : Obligations.InterruptIsServicedNextStep := by
  intro s src x hp hint
  set f := (fetch s).2 with hf
  set t := pendInterrupt (resolveSrc src f).1 (resolveSrc src f).2 with ht
  have hstep : step s = .next t := by
    rcases step_cases s with ⟨hp', -⟩ | ⟨-, e⟩
    · rw [hp] at hp'
      cases hp'
    · rw [e, hint, exec_int]
  obtain ⟨hregs, -⟩ := intAndUnknownFrame.1 src x f t (exec_int src x f)
  have hsame : s.SameContents t := (sameContents_fetch s).trans
    ⟨resolveSrc_cfg src f, resolveSrc_mem src f, resolveSrc_stack src f⟩
  refine ⟨t, service t, hstep, step_of_pending rfl, rfl, ?_, rfl, ?_, rfl, rfl, ?_, ?_, fun r hintc hep hsp => ?_⟩
  · rw [← fetch_ep s]
    exact hregs .ep nofun nofun
  · rw [service_ep, hsame.cfg]
  · exact wordAt_congr hsame.cfg hsame.mem
  · exact stackAt_congr hsame.cfg hsame.stack
  · have hservice : (service t).getReg r = t.getReg r := by cases r <;> first | rfl | contradiction
    rw [hservice, hregs r hintc hsp, getReg_fetch hep]

/-! ### Port traffic -/

/-- R53, R57: an instruction polls at most two values, and sends at most one. -/
theorem exec_ports {i : Instr} {s t : State} (ht : exec i s = .next t) :
    (∃ n ≤ 2, t.inQueue = s.inQueue.drop n) ∧
      ∃ sent : List Word, sent.length ≤ 1 ∧ t.outAccepted = s.outAccepted ++ sent := by
  have hcount : ∀ (p q : Prop) [Decidable p] [Decidable q], (if p then 1 else 0) + (if q then 1 else 0) ≤ 2 := by
    intro p q _ _
    split_ifs <;> omega
  rcases instr_cases i with hc | hc | ⟨src, dst, rfl⟩ | ⟨src, x, rfl⟩ | ⟨opc, a, b, rfl⟩
  · obtain ⟨-, -, hin, -, -, -, hout, -⟩ := mathFrame i s t hc ht
    exact ⟨⟨_, hcount _ _, hin⟩, [], by simp, by rw [hout, List.append_nil]⟩
  · obtain ⟨-, -, -, hin, -, -, -, hout, -⟩ := jumpFrame i s t hc ht
    exact ⟨⟨_, hcount _ _, hin⟩, [], by simp, by rw [hout, List.append_nil]⟩
  · obtain ⟨-, -, -, -, -, -, hin, hout, -⟩ := moveFrame src dst s t ht
    refine ⟨⟨_, hcount _ _, hin⟩, ?_⟩
    by_cases hdst : dstIs s.cfg.regMap dst .output
    · obtain rfl := Host.Outcome.next.inj ((moveToTheStackOrAPort src dst s).2.1 hdst |>.symm.trans ht)
      exact ⟨[(resolveSrc src s).1], by simp, rfl⟩
    · exact ⟨[], by simp, by rw [hout hdst, List.append_nil]⟩
  · obtain ⟨-, -, hin, -, hout, -⟩ := intAndUnknownFrame.1 src x s t ht
    exact ⟨⟨_, by split_ifs <;> omega, hin⟩, [], by simp, by rw [hout, List.append_nil]⟩
  · obtain ⟨-, -, hin, -, hout, -⟩ := intAndUnknownFrame.2 opc a b s t ht
    exact ⟨⟨0, by omega, hin⟩, [], by simp, by rw [hout, List.append_nil]⟩

/-- Settles O21: the fetch leaves the ports alone and only adds reports, as the instruction does. -/
theorem portTrafficIsOrdered : Obligations.PortTrafficIsOrdered := by
  intro s t ht
  rcases step_cases s with ⟨-, e⟩ | ⟨-, e⟩ <;> rw [e] at ht
  · obtain rfl := Host.Outcome.next.inj ht
    exact ⟨⟨[], by simp, rfl⟩, ⟨[], by simp, by simp⟩, [], by simp⟩
  · obtain ⟨⟨n, hn, hin⟩, sent, hsent, hout⟩ := exec_ports ht
    obtain ⟨new, hnew, -⟩ := exec_rebase ht false []
    rw [fetch_eq] at hin hout hnew
    refine ⟨⟨s.inQueue.take n, ?_, ?_⟩, ⟨sent, hsent, hout⟩, fetchReports s ++ new, ?_⟩
    · rw [List.length_take]
      omega
    · rw [hin, List.take_append_drop]
    · rw [hnew, List.append_assoc]

/-! ### SPIN -/

theorem lt_totalSize_of_wordAt {s : State} {a : Nat} (h : s.wordAt a ≠ 0) : a < totalSize s.cfg.blocks := by
  by_contra hout
  exact h (wordAt_uncovered (by omega))

/-- R142: the three words that an observer finds at a SPIN, and the flag clear. -/
theorem atSpin_iff {s : State} :
    atSpin s = true ↔ s.pending = false ∧
      s.wordAt (u16 s.ep) = opcodeWord (.immediate s.ep) (.direct s.cfg.regMap.ep) s.cfg.opcodes.move ∧
      s.wordAt (u16 (s.ep + 1)) = s.ep ∧ s.wordAt (u16 (s.ep + 2)) = s.cfg.regMap.ep := by
  simp [atSpin, encode, asmSpin, asmGoto, Instr.operand0, Instr.operand1, Instr.opcode, Operand.immediate,
    Operand.direct]

/-- R142: a step at a SPIN sets EP back to where it stands. -/
theorem step_of_atSpin {s : State} (hm : s.cfg.regMap.valid) (ho : s.cfg.opcodes.valid) (h : atSpin s = true) :
    step s = .next { s with reports := s.reports ++ fetchReports s } := by
  obtain ⟨hp, h0, h1, h2⟩ := atSpin_iff.1 h
  have hdecode : decode s.cfg.opcodes (s.wordAt (u16 s.ep)) (s.wordAt (u16 (s.ep + 1))) (s.wordAt (u16 (s.ep + 2))) =
      asmSpin s.cfg.regMap s.ep := by
    rw [h0, h1, h2]
    exact decode_opcodeWord (i := asmSpin s.cfg.regMap s.ep) ho rfl
  have hep : regTarget s.cfg.regMap s.cfg.regMap.ep = some (.cell .ep) := regTarget_addressOf hm (.cell .ep)
  rw [step_of_not_pending hp, hdecode, asmSpin, asmGoto, exec_move_cell ⟨rfl, hep⟩, resolveSrc_immediate, setReg_at_ep]

/-- The opcode word of SPIN has its immediate flag set. -/
theorem opcodeWord_immediate_ne_zero (n : Word) (b : Operand) (opc : BitVec 10) :
    opcodeWord (.immediate n) b opc ≠ 0 := by
  intro h
  have himm := congrArg Operand.imm (decodeOperand0_opcodeWord (.immediate n) b opc)
  rw [h] at himm
  exact Bool.false_ne_true himm

/-- R142: with the default register addresses, a SPIN's words are covered: the first and the third are not 0, and the
second is 0 only at EP 0, where it stands before the third. -/
theorem covered_of_atSpin_standard {s : State} (hm : s.cfg.regMap = .standard) (h : atSpin s = true) :
    ∀ e ∈ [s.ep, s.ep + 1, s.ep + 2], u16 e < totalSize s.cfg.blocks := by
  obtain ⟨-, h0, h1, h2⟩ := atSpin_iff.1 h
  have hfirst : u16 s.ep < totalSize s.cfg.blocks :=
    lt_totalSize_of_wordAt (by rw [h0]; exact opcodeWord_immediate_ne_zero _ _ _)
  have hthird : u16 (s.ep + 2) < totalSize s.cfg.blocks := by
    refine lt_totalSize_of_wordAt ?_
    rw [h2, hm]
    decide
  have hsecond : u16 (s.ep + 1) < totalSize s.cfg.blocks := by
    by_cases hep : s.ep = 0
    · rw [hep] at hthird ⊢
      exact Nat.lt_trans (by decide) hthird
    · exact lt_totalSize_of_wordAt (by rwa [h1])
  simp only [List.mem_cons, List.not_mem_nil, or_false]
  rintro e (rfl | rfl | rfl) <;> assumption

/-- Settles O58: the step at a SPIN adds the fetch's reports alone, and a covered fetch has none. -/
theorem spinStaysPut : Obligations.SpinStaysPut := by
  intro s hm ho h
  have hstep := step_of_atSpin hm ho h
  have hcovered : (∀ e ∈ [s.ep, s.ep + 1, s.ep + 2], u16 e < totalSize s.cfg.blocks) → step s = .next s := by
    intro hc
    rw [hstep, fetchReports, oobReports_of_covered hc, List.append_nil]
  refine ⟨⟨_, hstep⟩, fun hc => hcovered ?_, fun hc => hcovered (covered_of_atSpin_standard hc h)⟩
  simpa [fetchCovered, and_assoc] using hc

/-! ### Placing an instruction -/

/-- The blocks that `coverFetch` adds to, where it does. -/
def fillerBlock (s : State) : Block :=
  { name := "fetch", readOnly := false, init := .fresh (0x10000 - totalSize s.cfg.blocks) }

/-- What `coverFetch` does: nothing where the fetch is covered, and else one zero-filled block more. -/
theorem coverFetch_cases (s : State) :
    (fetchCovered s = true ∧ coverFetch s = s) ∨
      coverFetch s = { s with cfg := { s.cfg with blocks := s.cfg.blocks ++ [fillerBlock s] } } := by
  cases h : fetchCovered s
  · exact .inr (by simp only [coverFetch, h]; rfl)
  · exact .inl ⟨rfl, by simp only [coverFetch, h, if_true]⟩

theorem totalSize_append_filler (s : State) : 65536 ≤ totalSize (s.cfg.blocks ++ [fillerBlock s]) := by
  have hsize : totalSize (s.cfg.blocks ++ [fillerBlock s]) =
      totalSize s.cfg.blocks + (0x10000 - totalSize s.cfg.blocks) := by simp [totalSize, blockSize, fillerBlock]
  omega

/-- After `coverFetch` the blocks cover the next fetch. -/
theorem covered_coverFetch (s : State) :
    ∀ e ∈ [s.ep, s.ep + 1, s.ep + 2], u16 e < totalSize (coverFetch s).cfg.blocks := by
  rcases coverFetch_cases s with ⟨h, e⟩ | e <;> rw [e]
  · simpa [fetchCovered, and_assoc] using h
  · exact fun x _ => Nat.lt_of_lt_of_le (u16_lt x) (totalSize_append_filler s)

/-- More blocks leave the loaded words of the first ones alone. -/
theorem initialWord_append {bs cs : List Block} {a : Nat} (h : a < totalSize bs) :
    initialWord (bs ++ cs) a = initialWord bs a := by
  have hwalk : resolve (bs ++ cs) a = resolve bs a := resolveFrom_append h
  cases hfound : resolve bs a with
  | none => exact absurd (resolve_eq_none.1 hfound) (by omega)
  | some p =>
    obtain ⟨b, hb, -⟩ := resolve_eq_some hfound
    have hlt : p.1 < bs.length := (List.getElem?_eq_some_iff.1 hb).1
    simp only [initialWord, hwalk, hfound, List.getElem?_append_left hlt]

/-- The filler block loads zeros. -/
theorem initialWord_filler {s : State} {a : Nat} (h : totalSize s.cfg.blocks ≤ a) :
    initialWord (s.cfg.blocks ++ [fillerBlock s]) a = 0 := by
  cases hfound : resolve (s.cfg.blocks ++ [fillerBlock s]) a with
  | none => simp only [initialWord, hfound]
  | some p =>
    obtain ⟨k, r⟩ := p
    obtain ⟨b, hb, hr, haddr⟩ := resolve_eq_some hfound
    rcases Nat.lt_or_ge k s.cfg.blocks.length with hk | hk
    · rw [List.getElem?_append_left hk] at hb
      rw [List.take_append_of_le_length hk.le] at haddr
      have hin := lt_totalSize_of_resolve (resolve_eq_some_iff.2 ⟨b, hb, hr, haddr⟩)
      omega
    · obtain rfl : b = fillerBlock s := by
        rw [List.getElem?_append_right hk] at hb
        exact (List.mem_singleton.1 (List.mem_of_getElem? hb))
      simp only [initialWord, hfound, hb]
      rfl

/-- R40: under the invariant no cell is listed at an address that no block covers. -/
theorem lt_totalSize_of_listed {s : State} (hs : s.Inv) {c : Nat × Word} (hc : c ∈ s.mem) :
    c.1 < totalSize s.cfg.blocks := by
  obtain ⟨-, -, hwritable, -⟩ := hs
  have hw := hwritable c hc
  by_contra hout
  rw [writableAt, resolve_eq_none.2 (by omega)] at hw
  cases hw

theorem coverFetch_wf {s : State} (hs : s.Inv) : Memory.wf (coverFetch s) := by
  rcases coverFetch_cases s with ⟨-, e⟩ | e <;> rw [e]
  · exact hs.1
  · obtain ⟨hrising, hdiffer⟩ := hs.1
    refine ⟨hrising, fun c hc => ?_⟩
    rw [initialWord_append (lt_totalSize_of_listed hs hc)]
    exact hdiffer c hc

/-- Under the invariant, `coverFetch` changes no word: what it covers anew reads as 0 before and after. -/
theorem wordAt_coverFetch {s : State} (hs : s.Inv) (a : Nat) : (coverFetch s).wordAt a = s.wordAt a := by
  rcases coverFetch_cases s with ⟨-, e⟩ | e <;> rw [e]
  rcases Nat.lt_or_ge a (totalSize s.cfg.blocks) with ha | ha
  · have hwalk : resolve (s.cfg.blocks ++ [fillerBlock s]) a = resolve s.cfg.blocks a := resolveFrom_append ha
    simp only [State.wordAt, hwalk, initialWord_append ha]
  · have hunlisted : cellGet 0 s.mem a = 0 := cellGet_of_not_listed fun c hc hca => by
      have := lt_totalSize_of_listed hs hc
      omega
    rw [wordAt_uncovered ha, State.wordAt]
    simp only [initialWord_filler ha, hunlisted]
    split <;> rfl

theorem coverFetch_opcodes (s : State) : (coverFetch s).cfg.opcodes = s.cfg.opcodes := by
  rcases coverFetch_cases s with ⟨-, e⟩ | e <;> rw [e]

/-- Three words stored from an address on. -/
def storeThree (addr w0 w1 w2 : Word) (s : State) : State :=
  ((s.storeWord (u16 addr) w0).storeWord (u16 (addr + 1)) w1).storeWord (u16 (addr + 2)) w2

theorem placeAtFetch_three (w0 w1 w2 : Word) (s : State) :
    placeAtFetch [w0, w1, w2] s = { storeThree s.ep w0 w1 w2 (coverFetch s) with pending := false } := by
  have h2 : s.ep + 1 + 1 = s.ep + 2 := by bv_omega
  simp only [placeAtFetch, placeWords, h2, storeThree]

/-- The three indexes of a fetch are different. -/
theorem fetch_indexes_distinct (e : Word) :
    u16 e ≠ u16 (e + 1) ∧ u16 e ≠ u16 (e + 2) ∧ u16 (e + 1) ≠ u16 (e + 2) := by
  have he := u16_lt e
  have h1 : u16 (e + 1) = (u16 e + 1) % 65536 := u16_add_one e
  have h2 : u16 (e + 2) = (u16 e + 2) % 65536 := u16_add_ofNat e 2
  omega

section
variable {s : State} {addr w0 w1 w2 : Word}

theorem wordAt_storeThree (hwf : Memory.wf s)
    (hcovered : ∀ e ∈ [addr, addr + 1, addr + 2], u16 e < totalSize s.cfg.blocks) :
    (storeThree addr w0 w1 w2 s).wordAt (u16 addr) = w0 ∧
      (storeThree addr w0 w1 w2 s).wordAt (u16 (addr + 1)) = w1 ∧
      (storeThree addr w0 w1 w2 s).wordAt (u16 (addr + 2)) = w2 := by
  obtain ⟨h01, h02, h12⟩ := fetch_indexes_distinct addr
  refine ⟨?_, ?_, ?_⟩ <;> rw [storeThree]
  · rw [wordAt_storeWord_ne h02, wordAt_storeWord_ne h01, wordAt_storeWord_same hwf (hcovered _ (by simp))]
  · rw [wordAt_storeWord_ne h12, wordAt_storeWord_same (storeWord_wf hwf) (hcovered _ (by simp))]
  · exact wordAt_storeWord_same (storeWord_wf (storeWord_wf hwf)) (hcovered _ (by simp))

theorem wordAt_storeThree_ne {a : Nat} (h0 : a ≠ u16 addr) (h1 : a ≠ u16 (addr + 1)) (h2 : a ≠ u16 (addr + 2)) :
    (storeThree addr w0 w1 w2 s).wordAt a = s.wordAt a := by
  rw [storeThree, wordAt_storeWord_ne h2, wordAt_storeWord_ne h1, wordAt_storeWord_ne h0]

end

/-- Placing changes the blocks, the listed cells and the pending flag alone. -/
theorem placeAtFetch_state (w0 w1 w2 : Word) (s : State) :
    placeAtFetch [w0, w1, w2] s =
      { s with
        cfg := (coverFetch s).cfg
        mem := (placeAtFetch [w0, w1, w2] s).mem
        pending := false } := by
  rw [placeAtFetch_three]
  rcases coverFetch_cases s with ⟨-, e⟩ | e <;> rw [e] <;> rfl

theorem wordAt_placeAtFetch_eq (w0 w1 w2 : Word) (s : State) (a : Nat) :
    (placeAtFetch [w0, w1, w2] s).wordAt a = (storeThree s.ep w0 w1 w2 (coverFetch s)).wordAt a := by
  rw [placeAtFetch_three]
  exact wordAt_congr rfl rfl a

section
variable {s : State} (hs : s.Inv) (w0 w1 w2 : Word)
include hs

theorem wordAt_placeAtFetch :
    (placeAtFetch [w0, w1, w2] s).wordAt (u16 s.ep) = w0 ∧
      (placeAtFetch [w0, w1, w2] s).wordAt (u16 (s.ep + 1)) = w1 ∧
      (placeAtFetch [w0, w1, w2] s).wordAt (u16 (s.ep + 2)) = w2 := by
  simp only [wordAt_placeAtFetch_eq]
  exact wordAt_storeThree (coverFetch_wf hs) (covered_coverFetch s)

theorem wordAt_placeAtFetch_ne {a : Nat} (h0 : a ≠ u16 s.ep) (h1 : a ≠ u16 (s.ep + 1)) (h2 : a ≠ u16 (s.ep + 2)) :
    (placeAtFetch [w0, w1, w2] s).wordAt a = s.wordAt a := by
  rw [wordAt_placeAtFetch_eq, wordAt_storeThree_ne h0 h1 h2, wordAt_coverFetch hs]

/-- R17: after placing three words, the next step runs the instruction that they decode to. -/
theorem step_placeAtFetch :
    step (placeAtFetch [w0, w1, w2] s) =
      exec (decode s.cfg.opcodes w0 w1 w2) { placeAtFetch [w0, w1, w2] s with ep := s.ep + 3 } := by
  obtain ⟨hw0, hw1, hw2⟩ := wordAt_placeAtFetch hs w0 w1 w2
  have hstate := placeAtFetch_state w0 w1 w2 s
  generalize placeAtFetch [w0, w1, w2] s = t at *
  have hep : t.ep = s.ep := by rw [hstate]
  have hopcodes : t.cfg.opcodes = s.cfg.opcodes := by rw [hstate, coverFetch_opcodes]
  have hquiet : fetchReports t = [] := by
    rw [fetchReports, hep, hstate]
    exact oobReports_of_covered (covered_coverFetch s)
  rw [step_of_not_pending (by rw [hstate]), hep, hw0, hw1, hw2, hopcodes, hquiet, List.append_nil]

end

/-- Settles O53: the words placed are the words fetched, and nothing else changes. -/
theorem placedInstructionRuns : Obligations.PlacedInstructionRuns := by
  intro s nbits w hs
  obtain ⟨w0, w1, w2, hwords⟩ : ∃ w0 w1 w2, tableWords nbits w = [w0, w1, w2] := ⟨_, _, _, rfl⟩
  have hstate := placeAtFetch_state w0 w1 w2 s
  rw [State.withFetchWord, decodeTableWord, hwords]
  refine ⟨decode s.cfg.opcodes w0 w1 w2, _, rfl, fun hstandard => ?_, step_placeAtFetch hs w0 w1 w2, rfl,
    fun r => ?_, ?_, ?_, ?_, ?_, fun a => wordAt_placeAtFetch_ne hs w0 w1 w2⟩
  · rw [hstandard]
    rfl
  · rw [hstate]
    cases r <;> rfl
  all_goals rw [hstate]

/-! ### Reset -/

/-- Settles O54: the fields of the reset state, whose cells are not listed. -/
theorem resetState : Obligations.ResetState := by
  refine ⟨fun r => by cases r <;> rfl, fun cfg => ⟨rfl, rfl, rfl, fun hzero r hr => ?_, fun addr => ?_, fun i => ?_⟩⟩
  · have hword : ∀ k, resetWord cfg k = 0 := fun k => by simp only [resetWord, hzero]
    cases r <;> first | exact hword _ | contradiction
  · cases h : resolve cfg.blocks addr <;> simp [State.wordAt, State.resetWith, initialWord, h, cellGet]
  · simp [State.stackAt, State.resetWith, cellGet]

end Sys2Proof.Machine
